-- ==== Sys2Proof/Word.lean ====
section
/-! DEFINITION. The two word types of the simple_vm CORE (spec/00_scope.md rules R4, R6). -/

namespace Sys2Proof

/-- A register, an ALU operand or result, and one instruction word: 32 bits (`XLEN`, `IWIDTH` of rule R4). -/
abbrev Word := BitVec 32

/-- One byte: a register or opcode field (`OPW`, `REGFW` of rule R4), or a byte of a host tool's program image (rule R33). -/
abbrev Byte := BitVec 8

end Sys2Proof
end

