-- ==== Sys2Proof/Syntax.lean ====
section
/-! DEFINITION. Register names and instructions. One constructor of `Instr` for each row of spec/opcode_table.json. -/

namespace Sys2Proof

/-- The eight register-file slots by name, in the order of their indices 0 to 7 (rule R11). -/
inductive Reg where
  | pc
  | a
  | b
  | c
  | d
  | e
  | f
  | g
  deriving DecidableEq, Repr

/-- A decoded instruction, in the shape that rule R61 gives its `Decoded` values: register operands are names of the closed
register enumeration, and the 16-bit payload readings stand already extended to 32 bits. Operand order is field order, the
destination of the three-register forms last (rules R62, R105). -/
inductive Instr where
  /-- `Halt` (rule R110). -/
  | halt
  /-- `Load ra,imm16`; `v` is `sext_32(imm16)` (rule R90). -/
  | load (ra : Reg) (v : Word)
  /-- `Store`, declared and without semantics (rule R91). -/
  | store
  /-- `Inc ra` (rule R95). -/
  | inc (ra : Reg)
  /-- `Dec ra` (rule R96). -/
  | dec (ra : Reg)
  /-- `Add ra,rb,rc` (rule R100). -/
  | add (ra rb rc : Reg)
  /-- `Sub ra,rb,rc` (rule R101). -/
  | sub (ra rb rc : Reg)
  /-- `Mul ra,rb,rc` (rule R102). -/
  | mul (ra rb rc : Reg)
  /-- `Div ra,rb,rc` (rule R103). -/
  | div (ra rb rc : Reg)
  /-- `And ra,rb,rc`, the logical AND (rule R104). -/
  | and (ra rb rc : Reg)
  /-- `Jump addr16`; `t` is `zext_32(addr16)` (rule R111). -/
  | jump (t : Word)
  /-- `JumpIfZero ra,addr16`; `t` is `zext_32(addr16)` (rule R112). -/
  | jumpIfZero (ra : Reg) (t : Word)
  deriving DecidableEq, Repr

end Sys2Proof
end

