-- ==== Sys2Proof/WellFormed.lean ====
section
/-! DEFINITION. Which instructions an instruction word can hold. Register operands are legal by their type (rules R55, R58);
the extended payload values must lie in the range of their 16-bit field (rules R56, R62). -/

namespace Sys2Proof

/-- `v` is a Load value that a signed 16-bit immediate can give: -32768 to 32767 (rules R56, R90). -/
def immediateInRange (v : Word) : Bool := decide (-32768 ≤ v.toInt) && decide (v.toInt ≤ 32767)

/-- `t` is a target that an unsigned 16-bit address can give: 0 to 65535 (rules R56, R111, R115). -/
def targetInRange (t : Word) : Bool := decide (t.toNat ≤ 65535)

/-- The instruction has an encoding. -/
def Instr.wellFormed (i : Instr) : Bool :=
  match i with
  | .halt => true
  | .load _ v => immediateInRange v
  | .store => true
  | .inc _ => true
  | .dec _ => true
  | .add _ _ _ => true
  | .sub _ _ _ => true
  | .mul _ _ _ => true
  | .div _ _ _ => true
  | .and _ _ _ => true
  | .jump t => targetInRange t
  | .jumpIfZero _ t => targetInRange t

end Sys2Proof
end

