-- ==== Sys2Proof/Decode.lean ====
section
/-! DEFINITION. The operand decoder as a total function (spec/30_encoding.md rules R51 to R61), and after it the encoder. -/

namespace Sys2Proof

/-! ## Fields of the instruction word (rule R51) -/

/-- `op = w[31:24]`. -/
def opField (w : Word) : Byte := w.extractLsb' 24 8

/-- `ra = w[23:16]`. -/
def raField (w : Word) : Byte := w.extractLsb' 16 8

/-- `rb = w[15:8]`. -/
def rbField (w : Word) : Byte := w.extractLsb' 8 8

/-- `rc = w[7:0]`. -/
def rcField (w : Word) : Byte := w.extractLsb' 0 8

/-- `payload = w[15:0]`, read as `imm16` or as `addr16`. -/
def payloadField (w : Word) : BitVec 16 := w.extractLsb' 0 16

/-- `sext_32` of a 16-bit value (rule R7). -/
def sext32 (v : BitVec 16) : Word := v.signExtend 32

/-- `zext_32` of a 16-bit value (rule R7). -/
def zext32 (v : BitVec 16) : Word := v.setWidth 32

/-- `zext_32` of an 8-bit value (rule R7). -/
def zext32OfByte (v : Byte) : Word := v.setWidth 32

/-! ## Register numbering (rules R11, R55) -/

/-- The index of a register, as a register field holds it. -/
def Reg.index (r : Reg) : Byte :=
  match r with
  | .pc => 0
  | .a => 1
  | .b => 2
  | .c => 3
  | .d => 4
  | .e => 5
  | .f => 6
  | .g => 7

/-- The register that a register field names; the values 8 to 255 name none (rules R55, R58). -/
def Reg.ofField (v : Byte) : Option Reg :=
  match v.toNat with
  | 0 => some .pc
  | 1 => some .a
  | 2 => some .b
  | 3 => some .c
  | 4 => some .d
  | 5 => some .e
  | 6 => some .f
  | 7 => some .g
  | _ => none

/-! ## The decoder (rule R61) -/

/-- What the decoder answers: an instruction, or one of the two decode faults of rule R61. -/
inductive Decoded where
  /-- An instruction, register fields checked. -/
  | instr (i : Instr)
  /-- The opcode value is 2 or 12 to 255 (rule R59). -/
  | undefinedOpcode
  /-- A register field that the format reads holds 8 to 255 (rule R58). -/
  | illegalRegister
  deriving DecidableEq, Repr

/-- Formats R, RI and RJ: `ra` is read and checked (rules R52, R58). -/
def decodeReg (w : Word) (mk : Reg → Instr) : Decoded :=
  match Reg.ofField (raField w) with
  | some ra => .instr (mk ra)
  | none => .illegalRegister

/-- Format RRR: `ra`, `rb` and `rc` are read and checked (rules R52, R58). -/
def decodeRegs (w : Word) (mk : Reg → Reg → Reg → Instr) : Decoded :=
  match Reg.ofField (raField w), Reg.ofField (rbField w), Reg.ofField (rcField w) with
  | some ra, some rb, some rc => .instr (mk ra rb rc)
  | _, _, _ => .illegalRegister

/-- The decoder of rule R61: opcode first, then the register fields its format reads. Opcode 2, `Store`, is an undefined opcode
value (rule R59). -/
def decode (w : Word) : Decoded :=
  match (opField w).toNat with
  | 0 => .instr .halt
  | 1 => decodeReg w (fun ra => .load ra (sext32 (payloadField w)))
  | 2 => .undefinedOpcode
  | 3 => decodeReg w .inc
  | 4 => decodeReg w .dec
  | 5 => decodeRegs w .add
  | 6 => decodeRegs w .sub
  | 7 => decodeRegs w .mul
  | 8 => decodeRegs w .div
  | 9 => decodeRegs w .and
  | 10 => .instr (.jump (zext32 (payloadField w)))
  | 11 => decodeReg w (fun ra => .jumpIfZero ra (zext32 (payloadField w)))
  | _ => .undefinedOpcode

/-- The row of the opcode table that a word belongs to: the decoder's answer, but that opcode 2 is named by its row, the declared
instruction `Store` (rules R54, R91; notes/assumptions/5.md). No cycle uses it. -/
def readRow (w : Word) : Decoded := if opField w = 2#8 then .instr .store else decode w

/-- The host's reading of the opcode table: the instruction whose row the bits `w` belong to; `nbits` of them are given and the
rest are 0. An instruction is one whole 32-bit word (rule R50), so there is nothing to lay out. -/
def decodeTableWord (nbits w : Nat) : Option Instr :=
  match readRow (BitVec.ofNat 32 (w % 2 ^ nbits)) with
  | .instr i => some i
  | .undefinedOpcode => none
  | .illegalRegister => none

/-! ## The encoder (rules R51, R52, R54), unread fields zero (rule R57) -/

/-- The opcode number of rule R54. -/
def Instr.opcode (i : Instr) : Byte :=
  match i with
  | .halt => 0
  | .load _ _ => 1
  | .store => 2
  | .inc _ => 3
  | .dec _ => 4
  | .add _ _ _ => 5
  | .sub _ _ _ => 6
  | .mul _ _ _ => 7
  | .div _ _ _ => 8
  | .and _ _ _ => 9
  | .jump _ => 10
  | .jumpIfZero _ _ => 11

/-- `op << 24 | ra << 16 | payload`. -/
def packWord (op ra : Byte) (payload : BitVec 16) : Word :=
  (zext32OfByte op <<< 24) ||| (zext32OfByte ra <<< 16) ||| zext32 payload

/-- `rb << 8 | rc`, the payload as a register pair (rule R51). -/
def packPair (rb rc : Reg) : BitVec 16 := (rb.index.setWidth 16 <<< 8) ||| rc.index.setWidth 16

/-- The low 16 bits of an extended payload value. -/
def payloadOf (v : Word) : BitVec 16 := v.setWidth 16

/-- The canonical word of a well-formed instruction. -/
def encode (i : Instr) : Word :=
  match i with
  | .halt => packWord i.opcode 0 0
  | .load ra v => packWord i.opcode ra.index (payloadOf v)
  | .store => packWord i.opcode 0 0
  | .inc ra => packWord i.opcode ra.index 0
  | .dec ra => packWord i.opcode ra.index 0
  | .add ra rb rc => packWord i.opcode ra.index (packPair rb rc)
  | .sub ra rb rc => packWord i.opcode ra.index (packPair rb rc)
  | .mul ra rb rc => packWord i.opcode ra.index (packPair rb rc)
  | .div ra rb rc => packWord i.opcode ra.index (packPair rb rc)
  | .and ra rb rc => packWord i.opcode ra.index (packPair rb rc)
  | .jump t => packWord i.opcode 0 (payloadOf t)
  | .jumpIfZero ra t => packWord i.opcode ra.index (payloadOf t)

/-- The bits of the word that the instruction's format reads (rule R52); the other bits are ignored (rule R57). -/
def Instr.readMask (i : Instr) : Word :=
  match i with
  | .halt => 0xFF000000
  | .load _ _ => 0xFFFFFFFF
  | .store => 0xFF000000
  | .inc _ => 0xFFFF0000
  | .dec _ => 0xFFFF0000
  | .add _ _ _ => 0xFFFFFFFF
  | .sub _ _ _ => 0xFFFFFFFF
  | .mul _ _ _ => 0xFFFFFFFF
  | .div _ _ _ => 0xFFFFFFFF
  | .and _ _ _ => 0xFFFFFFFF
  | .jump _ => 0xFF00FFFF
  | .jumpIfZero _ _ => 0xFFFFFFFF

end Sys2Proof
end

