-- ==== Sys2Proof/Config.lean ====
section
/-! DEFINITION. What the spec fixes for every CORE. The spec leaves no result and no register value undefined, so there is no
free value here; the open parameters `prog` and `PLEN` of rule R4 are the field `prog` of the state (notes/assumptions/1.md). -/

namespace Sys2Proof.Config

/-- The largest legal `PLEN`, 2^31 - 1 (rule R4, decision D7). -/
def maxProgramLength : Nat := 2147483647

/-- The instruction index of the entry point, the program counter after reset (rules R23, R36). -/
def entryPoint : Word := 0

end Sys2Proof.Config
end

