-- ==== Sys2Proof/Machine/State.lean ====
section
/-! DEFINITION. The whole state of the CORE as plain data (spec/10_state.md), the reasons a step can stop, and reset. -/

namespace Sys2Proof.Machine

/-- The register file: eight 32-bit slots in index order (rules R10, R11). `pc` is slot 0, the program counter: one cell,
not two (rule R12). -/
structure RegFile where
  pc : Word
  a : Word
  b : Word
  c : Word
  d : Word
  e : Word
  f : Word
  g : Word
  deriving DecidableEq, Repr

/-- The four fatal conditions (rule R130). Each is recorded in `status`; none carries any other value (rule R135). -/
inductive FatalCondition where
  /-- Raised by the fetch, when the program counter is outside the Program Store (rule R131). -/
  | outOfBounds
  /-- Raised by Div with a zero divisor (rule R132). -/
  | divisionByZero
  /-- Raised by Store and by the opcode values 12 to 255 (rule R133). -/
  | undefinedOpcode
  /-- Raised by a read register field of 8 to 255 under a defined opcode (rule R134). -/
  | illegalRegister
  deriving DecidableEq, Repr

/-- The run status (rule R17). `halted` and `faulted` are terminal. -/
inductive Status where
  | running
  | halted
  | faulted (c : FatalCondition)
  deriving DecidableEq, Repr

/-- The Program Store: the instruction word at each index, from index 0; `PLEN` is its length (rules R20, R31). It is the
only memory, and its unit is a whole word (rules R30, R33; notes/assumptions/2.md). Equal stores are equal lists. -/
abbrev Memory := List Word

/-- Everything the spec gives the machine. -/
structure State where
  /-- The register file `x[0..7]` (rule R10). -/
  x : RegFile
  /-- The run status (rule R17). -/
  status : Status
  /-- The Program Store, `prog` and `PLEN` (rule R20; notes/assumptions/1.md). -/
  prog : Memory
  /-- The inert value-stack (rule R21; notes/assumptions/8.md). -/
  valueStack : List Word
  /-- The model's own field: `load` has not happened and no cycle has started since reset (rule R121;
  notes/assumptions/6.md). -/
  loadOpen : Bool
  deriving DecidableEq, Repr

/-- Reasons to stop with a fault. There are none: every fatal condition of the spec is an entry it describes,
`status <- Faulted(c)`, and so a next state (rule R138; notes/assumptions/3.md). -/
inductive Fault where
  deriving DecidableEq, Repr

/-- Reasons to refuse. -/
inductive Refusal where
  /-- Raised by `exec` for an instruction without a meaning, under its mnemonic; no instruction is left in that case. Safe. -/
  | notModelled (mnemonic : String)
  /-- Raised by `load` outside its one legal position, a use the spec calls undefined (rule R121, U3). Safe. -/
  | loadMisplaced
  /-- Raised by `load` and by `step` for a Program Store of more than 2^31 - 1 words, a configuration the spec has the
  model refuse (decision D7, V4). Safe. -/
  | programTooLong
  deriving DecidableEq, Repr

/-- The machine right after reset, every value as rule R23 gives it (`loadOpen` is the model's own). -/
def State.reset : State where
  x := { pc := Config.entryPoint, a := 0, b := 0, c := 0, d := 0, e := 0, f := 0, g := 0 }
  status := .running
  prog := []
  valueStack := []
  loadOpen := true

end Sys2Proof.Machine
end

