-- ==== Sys2Proof/Machine/Operands.lean ====
section
/-! DEFINITION. Operands: the readings of a 32-bit value (rules R6, R7) and the register operand of an instruction, the only
operand form that reads state (rules R53, R82). Immediates and targets come extended from the decoder (rule R61). -/

namespace Sys2Proof.Machine

/-- `signed(v)`, the two's-complement reading (rule R7). -/
def signed (v : Word) : Int := if v.toNat < 2147483648 then (v.toNat : Int) else (v.toNat : Int) - 4294967296

/-- `wrap32(n)`, the 32-bit value congruent to `n` modulo 2^32 (rule R7). -/
def wrap32 (n : Int) : Word := BitVec.ofNat 32 (n % 4294967296).toNat

/-- The value of a slot of the register file, `x[i]` (rules R7, R10). No slot is hard-wired (rule R13). -/
def RegFile.read (x : RegFile) (r : Reg) : Word :=
  match r with
  | .pc => x.pc
  | .a => x.a
  | .b => x.b
  | .c => x.c
  | .d => x.d
  | .e => x.e
  | .f => x.f
  | .g => x.g

/-- The register file after `x[i] <- v` (rules R7, R13). -/
def RegFile.write (x : RegFile) (r : Reg) (v : Word) : RegFile :=
  match r with
  | .pc => { x with pc := v }
  | .a => { x with a := v }
  | .b => { x with b := v }
  | .c => { x with c := v }
  | .d => { x with d := v }
  | .e => { x with e := v }
  | .f => { x with f := v }
  | .g => { x with g := v }

/-- A register operand: `x[i]` of the state. Slot 0 reads the program counter as the fetch left it (rules R12, R74). -/
def State.readReg (s : State) (r : Reg) : Word := s.x.read r

/-- A register destination: `x[i] <- v`. Slot 0 redirects control (rules R13, R113). -/
def State.writeReg (s : State) (r : Reg) (v : Word) : State := { s with x := s.x.write r v }

end Sys2Proof.Machine
end

