-- ==== Sys2Proof/Machine/Flags.lean ====
section
/-! DEFINITION. The CORE has no flags (rules R18, R81). The two conditions it computes are stored nowhere: each is used in the
cycle that computes it. -/

namespace Sys2Proof.Machine

/-- The zero test of JumpIfZero: all 32 bits compared with zero (rules R82, R112). -/
def isZero (v : Word) : Bool := v == 0#32

/-- The divide-by-zero condition of the ALU (rules R81, R84). -/
def divideByZero (b : Word) : Bool := b == 0#32

end Sys2Proof.Machine
end

