-- ==== Sys2Proof/Machine/Alu.lean ====
section
/-! DEFINITION. The seven operations of the 32-bit ALU as pure functions (spec/41_alu.md): the exact integer result, wrapped. -/

namespace Sys2Proof.Machine

/-- `tdiv(a, b)`, the quotient truncated toward zero: magnitude `floor(|a| / |b|)`, not negative when the signs agree
(rule R7). -/
def tdiv (a b : Int) : Int :=
  if decide (a < 0) = decide (b < 0) then ((a.natAbs / b.natAbs : Nat) : Int) else -((a.natAbs / b.natAbs : Nat) : Int)

/-- Rule R83. -/
def aluAdd (a b : Word) : Word := wrap32 (signed a + signed b)

/-- Rule R85. -/
def aluSub (a b : Word) : Word := wrap32 (signed a - signed b)

/-- Rule R86: the low 32 bits of the product. -/
def aluMul (a b : Word) : Word := wrap32 (signed a * signed b)

/-- Rule R84: no result for a zero divisor; -2^31 / -1 wraps (notes/assumptions/11.md). -/
def aluDiv (a b : Word) : Option Word :=
  if divideByZero b then none else some (wrap32 (tdiv (signed a) (signed b)))

/-- Rule R87: the logical AND of the two truth values, 0 or 1. -/
def aluAnd (a b : Word) : Word := if !isZero a && !isZero b then 1 else 0

/-- Rule R88. -/
def aluInc (a : Word) : Word := wrap32 (signed a + 1)

/-- Rule R89. -/
def aluDec (a : Word) : Word := wrap32 (signed a - 1)

end Sys2Proof.Machine
end

