-- ==== Sys2Proof/Machine/Ops.lean ====
section
/-! DEFINITION. The named operations every meaning is built from: the Program Store, the fetch stage, the status, and taking a
fatal condition. -/

namespace Sys2Proof.Machine

/-! ## The Program Store (spec/20_memory.md) -/

/-- `PLEN`, the number of instructions in the Program Store (rule R4). -/
def Memory.plen (m : Memory) : Nat := m.length

/-- The Program Store is a legal configuration: `PLEN <= 2^31 - 1` (rule R4, V4). A list of words has no other form to keep. -/
def Memory.wf (m : Memory) : Bool := decide (m.plen ≤ Config.maxProgramLength)

/-- `ProgRead(i)`: the word at index `i`, defined only for `0 <= i < PLEN` (rule R31). -/
def Memory.progRead (m : Memory) (i : Int) : Option Word := if i < 0 then none else m[i.toNat]?

/-- The store with `w` at index `i`, zero words (which are Halt, rule R110) filling any gap below `i`. Only
`State.withFetchWord` uses it: no instruction writes the Program Store (rule R41). -/
def Memory.putWord (m : Memory) (i : Nat) (w : Word) : Memory :=
  match i, m with
  | 0, [] => [w]
  | 0, _ :: rest => w :: rest
  | n + 1, [] => 0 :: Memory.putWord [] n w
  | n + 1, v :: rest => v :: Memory.putWord rest n w

/-! ## Status -/

/-- `status <- st` (rule R17). -/
def State.setStatus (s : State) (st : Status) : State := { s with status := st }

/-- `halt`: the run ends with success (rule R110). -/
def halt (s : State) : Host.Outcome State Fault Refusal := .next (s.setStatus .halted)

/-- `raise c`: TAKING A FATAL CONDITION does exactly `status <- Faulted(c)` and ends the cycle; nothing is saved and control
goes nowhere (rule R138). There is no return from one: only reset leaves it (rule R140). -/
def raise (c : FatalCondition) (s : State) : Host.Outcome State Fault Refusal := .next (s.setStatus (.faulted c))

/-! ## Execute: read the sources, compute, write the one destination (rule R74) -/

/-- A handler that writes the value `v` to `rd` and nothing else. -/
def writeResult (rd : Reg) (v : Word) (s : State) : Host.Outcome State Fault Refusal := .next (s.writeReg rd v)

/-- The one-register handlers: `a <- x[ra]; x[ra] <- f(a)` (rules R95, R96). -/
def unaryOp (f : Word → Word) (ra : Reg) (s : State) : Host.Outcome State Fault Refusal :=
  writeResult ra (f (s.readReg ra)) s

/-- The three-register handlers: `a <- x[ra]; b <- x[rb]; x[rc] <- f(a, b)`, both reads before the write (rule R105). -/
def binaryOp (f : Word → Word → Word) (ra rb rc : Reg) (s : State) : Host.Outcome State Fault Refusal :=
  writeResult rc (f (s.readReg ra) (s.readReg rb)) s

/-! ## The fetch stage (rule R72) -/

/-- A cycle starts: from here on no `load` is legal (rule R121). No register of the spec changes. -/
def State.beginCycle (s : State) : State := { s with loadOpen := false }

/-- The state after a successful fetch: `x[0] <- wrap32(x[0] + 1)` (rules R15, R72). -/
def State.afterFetch (s : State) : State := s.beginCycle.writeReg .pc (wrap32 (signed (s.readReg .pc) + 1))

/-- The word that the fetch reads, none where the bounds check fails (rules R32, R72). -/
def State.fetchWord (s : State) : Option Word := s.prog.progRead (signed (s.readReg .pc))

end Sys2Proof.Machine
end

