-- ==== Sys2Proof/Machine/Binary.lean ====
section
/-! DEFINITION. Add, Sub, Mul, Div and And (spec/44_binary.md): sources `ra`, `rb`, destination `rc`. -/

namespace Sys2Proof.Machine

/-- `x[rc] <- alu_add(x[ra], x[rb])` (rule R100). -/
def execAdd (ra rb rc : Reg) (s : State) : Host.Outcome State Fault Refusal := binaryOp aluAdd ra rb rc s

/-- `x[rc] <- alu_sub(x[ra], x[rb])` (rule R101). -/
def execSub (ra rb rc : Reg) (s : State) : Host.Outcome State Fault Refusal := binaryOp aluSub ra rb rc s

/-- `x[rc] <- alu_mul(x[ra], x[rb])` (rule R102). -/
def execMul (ra rb rc : Reg) (s : State) : Host.Outcome State Fault Refusal := binaryOp aluMul ra rb rc s

/-- `x[rc] <- alu_div(x[ra], x[rb])`; a zero divisor raises DivisionByZero and writes no register (rule R103). -/
def execDiv (ra rb rc : Reg) (s : State) : Host.Outcome State Fault Refusal :=
  match aluDiv (s.readReg ra) (s.readReg rb) with
  | some q => writeResult rc q s
  | none => raise .divisionByZero s

/-- `x[rc] <- alu_and(x[ra], x[rb])`, logical (rule R104). -/
def execAnd (ra rb rc : Reg) (s : State) : Host.Outcome State Fault Refusal := binaryOp aluAnd ra rb rc s

end Sys2Proof.Machine
end

