-- ==== Sys2Proof/Machine/Control.lean ====
section
/-! DEFINITION. Halt, Jump and JumpIfZero (spec/45_control.md). -/

namespace Sys2Proof.Machine

/-- `status <- Halted` (rule R110). -/
def execHalt (s : State) : Host.Outcome State Fault Refusal := halt s

/-- `x[0] <- zext_32(addr16)`, absolute and unchecked; `t` comes extended from the decoder (rule R111). -/
def execJump (t : Word) (s : State) : Host.Outcome State Fault Refusal := writeResult .pc t s

/-- `if x[ra] = 0 then x[0] <- zext_32(addr16)`, else nothing is written (rule R112). -/
def execJumpIfZero (ra : Reg) (t : Word) (s : State) : Host.Outcome State Fault Refusal :=
  if isZero (s.readReg ra) then writeResult .pc t s else .next s

end Sys2Proof.Machine
end

