-- ==== Sys2Proof/Machine/LoadStore.lean ====
section
/-! DEFINITION. Load and Store (spec/42_load_store.md). -/

namespace Sys2Proof.Machine

/-- `x[ra] <- sext_32(imm16)`; `v` comes extended from the decoder (rule R90). -/
def execLoad (ra : Reg) (v : Word) (s : State) : Host.Outcome State Fault Refusal := writeResult ra v s

/-- `raise UndefinedOpcode`, always (rule R91). In a cycle the decoder raises it, with the same effect (rule R61;
notes/assumptions/5.md). -/
def execStore (s : State) : Host.Outcome State Fault Refusal := raise .undefinedOpcode s

end Sys2Proof.Machine
end

