-- ==== Sys2Proof/Machine/Unary.lean ====
section
/-! DEFINITION. Inc and Dec (spec/43_unary.md). -/

namespace Sys2Proof.Machine

/-- `x[ra] <- alu_inc(x[ra])` (rule R95). -/
def execInc (ra : Reg) (s : State) : Host.Outcome State Fault Refusal := unaryOp aluInc ra s

/-- `x[ra] <- alu_dec(x[ra])` (rule R96). -/
def execDec (ra : Reg) (s : State) : Host.Outcome State Fault Refusal := unaryOp aluDec ra s

end Sys2Proof.Machine
end

