-- ==== Sys2Proof/Machine/Cycle.lean ====
section
/-! DEFINITION. One fetch-decode-execute cycle (spec/40_cycle.md rule R75). -/

namespace Sys2Proof.Machine

/-- Decode and execute of the fetched word `w`, in the state after the fetch increment (rules R73, R74). -/
def decodeExecute (w : Word) (s : State) : Host.Outcome State Fault Refusal :=
  match decode w with
  | .instr i => exec i s
  | .undefinedOpcode => raise .undefinedOpcode s
  | .illegalRegister => raise .illegalRegister s

/-- The cycle, to be run in status `Running`: bounds check, fetch, increment, decode, execute (rule R75). OutOfBounds changes
no register (rule R131). -/
def cycle (s : State) : Host.Outcome State Fault Refusal :=
  match s.fetchWord with
  | none => raise .outOfBounds s.beginCycle
  | some w => decodeExecute w s.afterFetch

/-- The state in which the next step fetches `w`: `w` stands at the index the program counter holds, and the status is
Running. A program counter that no legal store reaches is set to index 0, with `w` as the whole store
(notes/assumptions/10.md). -/
def State.placeNext (s : State) (w : Word) : State :=
  if 0 ≤ signed (s.readReg .pc) ∧ signed (s.readReg .pc) < (Config.maxProgramLength : Int) ∧ s.prog.wf = true then
    { s with status := .running, prog := s.prog.putWord (signed (s.readReg .pc)).toNat w }
  else
    { s.writeReg .pc Config.entryPoint with status := .running, prog := [w] }

end Sys2Proof.Machine
end

