-- ==== Sys2Proof/Machine/Step.lean ====
section
/-! DEFINITION. The step function of the machine: the host's `step()` (spec/50_interfaces.md rule R124). -/

namespace Sys2Proof.Machine

/-- One step. In a terminal status no cycle runs and nothing changes (rules R71, R124; notes/assumptions/4.md). In status
Running one cycle runs (rule R75), on any Program Store of a legal length (V4; notes/assumptions/7.md). -/
def step (s : State) : Host.Outcome State Fault Refusal :=
  match s.status with
  | .halted => .next s
  | .faulted _ => .next s
  | .running => if s.prog.wf then cycle s else .refused .programTooLong

/-- `s` with the table word `w` (its low `nbits` bits, the rest 0) stored where the next step fetches
(notes/assumptions/9.md, notes/assumptions/10.md). -/
def State.withFetchWord (s : State) (nbits w : Nat) : State := s.placeNext (BitVec.ofNat 32 (w % 2 ^ nbits))

end Sys2Proof.Machine
end

