-- ==== Sys2Proof/Machine/Assembly.lean ====
section
/-! DEFINITION. The assembly notation (spec/30_encoding.md rule R62): reading a program text into instruction words, and
writing an instruction out. A text is a list of characters. The blanks it allows are the model's (notes/assumptions/14.md). -/

namespace Sys2Proof.Machine

/-! ## Names -/

/-- The mnemonic, spelled as in the opcode enumeration (rule R62). -/
def mnemonicOf (i : Instr) : List Char :=
  match i with
  | .halt => ['H', 'a', 'l', 't']
  | .load _ _ => ['L', 'o', 'a', 'd']
  | .store => ['S', 't', 'o', 'r', 'e']
  | .inc _ => ['I', 'n', 'c']
  | .dec _ => ['D', 'e', 'c']
  | .add _ _ _ => ['A', 'd', 'd']
  | .sub _ _ _ => ['S', 'u', 'b']
  | .mul _ _ _ => ['M', 'u', 'l']
  | .div _ _ _ => ['D', 'i', 'v']
  | .and _ _ _ => ['A', 'n', 'd']
  | .jump _ => ['J', 'u', 'm', 'p']
  | .jumpIfZero _ _ => ['J', 'u', 'm', 'p', 'I', 'f', 'Z', 'e', 'r', 'o']

/-- The name of a register (rules R11, R62). -/
def regName (r : Reg) : List Char :=
  match r with
  | .pc => ['P', 'C']
  | .a => ['A']
  | .b => ['B']
  | .c => ['C']
  | .d => ['D']
  | .e => ['E']
  | .f => ['F']
  | .g => ['G']

/-- The register a name stands for. -/
def parseReg (cs : List Char) : Option Reg :=
  [Reg.pc, .a, .b, .c, .d, .e, .f, .g].find? (fun r => regName r == cs)

/-! ## Decimal integers -/

/-- The character of a digit 0 to 9. -/
def digitChar (d : Nat) : Char := Char.ofNat (48 + d)

/-- The digit of a character. -/
def digitValue (c : Char) : Option Nat := if 48 ≤ c.toNat ∧ c.toNat ≤ 57 then some (c.toNat - 48) else none

/-- The decimal digits of `n`, at most `k` of them. -/
def decimal : Nat → Nat → List Char
  | 0, _ => []
  | k + 1, n => if n < 10 then [digitChar n] else decimal k (n / 10) ++ [digitChar (n % 10)]

/-- The decimal form of a 32-bit value read as a natural number. -/
def natText (n : Nat) : List Char := decimal 10 n

/-- The decimal form of an integer. -/
def intText (n : Int) : List Char := if n < 0 then '-' :: natText n.natAbs else natText n.natAbs

/-- The number that a run of digits continues from `acc`. -/
def parseDigits (acc : Nat) (cs : List Char) : Option Nat :=
  match cs with
  | [] => some acc
  | c :: rest =>
    match digitValue c with
    | some d => parseDigits (10 * acc + d) rest
    | none => none

/-- A decimal natural number, at least one digit. -/
def parseNat (cs : List Char) : Option Nat :=
  match cs with
  | [] => none
  | c :: rest => parseDigits 0 (c :: rest)

/-- A decimal integer, with a minus sign before a negative one. `-0` is read as 0 too: DESIGN CHOICE, rule R62 does not say
whether it is a decimal integer (notes/assumptions/14.md). -/
def parseInt (cs : List Char) : Option Int :=
  match cs with
  | [] => none
  | c :: rest =>
    if c = '-' then (parseNat rest).map (fun n : Nat => -(n : Int)) else (parseNat (c :: rest)).map (fun n : Nat => (n : Int))

/-- An immediate: a decimal integer from -32768 to 32767 (rule R62), extended. -/
def parseImmediate (cs : List Char) : Option Word :=
  match parseInt cs with
  | some n => if -32768 ≤ n ∧ n ≤ 32767 then some (BitVec.ofInt 32 n) else none
  | none => none

/-- A target: a decimal integer from 0 to 65535 (rule R62), extended. -/
def parseTarget (cs : List Char) : Option Word :=
  match parseNat cs with
  | some n => if n ≤ 65535 then some (BitVec.ofNat 32 n) else none
  | none => none

/-! ## Cutting the text -/

/-- Blanks inside an instruction: space, tab, carriage return (notes/assumptions/14.md). -/
def isBlank (c : Char) : Bool := c == ' ' || c == '\t' || c == '\r'

/-- Separators of instructions: `;` or a line end (rule R62). -/
def isSeparator (c : Char) : Bool := c == ';' || c == '\n'

/-- The parts of a text between the characters that `p` holds for. -/
def splitText (p : Char → Bool) (cs : List Char) : List (List Char) :=
  match cs with
  | [] => [[]]
  | c :: rest =>
    if p c then [] :: splitText p rest
    else
      match splitText p rest with
      | [] => [[c]]
      | part :: parts => (c :: part) :: parts

/-- The text without blanks at its ends. -/
def trimText (cs : List Char) : List Char := ((cs.dropWhile isBlank).reverse.dropWhile isBlank).reverse

/-! ## Instructions -/

/-- The three-register forms, destination last (rule R62). -/
def parseRegs (mk : Reg → Reg → Reg → Instr) (ops : List (List Char)) : Option Instr :=
  match ops with
  | [a, b, c] =>
    match parseReg a, parseReg b, parseReg c with
    | some ra, some rb, some rc => some (mk ra rb rc)
    | _, _, _ => none
  | _ => none

/-- The one-register forms. -/
def parseOneReg (mk : Reg → Instr) (ops : List (List Char)) : Option Instr :=
  match ops with
  | [a] => (parseReg a).map mk
  | _ => none

/-- A register and a payload value. -/
def parseRegValue (value : List Char → Option Word) (mk : Reg → Word → Instr) (ops : List (List Char)) : Option Instr :=
  match ops with
  | [a, v] =>
    match parseReg a, value v with
    | some ra, some w => some (mk ra w)
    | _, _ => none
  | _ => none

/-- The instruction of a mnemonic and its operands, in field order (rule R62). -/
def parseOperands (m : List Char) (ops : List (List Char)) : Option Instr :=
  if m = mnemonicOf .halt then (if ops = [] then some .halt else none)
  else if m = mnemonicOf (.load .pc 0) then parseRegValue parseImmediate .load ops
  else if m = mnemonicOf .store then (if ops = [] then some .store else none)
  else if m = mnemonicOf (.inc .pc) then parseOneReg .inc ops
  else if m = mnemonicOf (.dec .pc) then parseOneReg .dec ops
  else if m = mnemonicOf (.add .pc .pc .pc) then parseRegs .add ops
  else if m = mnemonicOf (.sub .pc .pc .pc) then parseRegs .sub ops
  else if m = mnemonicOf (.mul .pc .pc .pc) then parseRegs .mul ops
  else if m = mnemonicOf (.div .pc .pc .pc) then parseRegs .div ops
  else if m = mnemonicOf (.and .pc .pc .pc) then parseRegs .and ops
  else if m = mnemonicOf (.jump 0) then
    (match ops with
    | [t] => (parseTarget t).map .jump
    | _ => none)
  else if m = mnemonicOf (.jumpIfZero .pc 0) then parseRegValue parseTarget .jumpIfZero ops
  else none

/-- One instruction: a mnemonic, a blank, and operands separated by commas (rule R62). -/
def parseInstr (cs : List Char) : Option Instr :=
  let line := trimText cs
  let rest := trimText (line.dropWhile (fun c => !isBlank c))
  parseOperands (line.takeWhile (fun c => !isBlank c))
    (if rest = [] then [] else (splitText (· == ',') rest).map trimText)

/-- The instructions of the parts of a text, parts of blanks only left out. -/
def parseParts (parts : List (List Char)) : Option (List Instr) :=
  match parts with
  | [] => some []
  | part :: rest =>
    if trimText part = [] then parseParts rest
    else
      match parseInstr part, parseParts rest with
      | some i, some is => some (i :: is)
      | _, _ => none

/-- The program words of an assembly text, unread fields zero (rules R57, R62). -/
def assemble (text : List Char) : Option Memory :=
  (parseParts (splitText isSeparator text)).map (List.map encode)

/-! ## Writing an instruction -/

/-- Operands joined by commas. -/
def joinOperands (ops : List (List Char)) : List Char :=
  match ops with
  | [] => []
  | [o] => o
  | o :: rest => o ++ ',' :: joinOperands rest

/-- The operands of an instruction in field order (rule R62). -/
def operandTexts (i : Instr) : List (List Char) :=
  match i with
  | .halt => []
  | .load ra v => [regName ra, intText v.toInt]
  | .store => []
  | .inc ra => [regName ra]
  | .dec ra => [regName ra]
  | .add ra rb rc => [regName ra, regName rb, regName rc]
  | .sub ra rb rc => [regName ra, regName rb, regName rc]
  | .mul ra rb rc => [regName ra, regName rb, regName rc]
  | .div ra rb rc => [regName ra, regName rb, regName rc]
  | .and ra rb rc => [regName ra, regName rb, regName rc]
  | .jump t => [natText t.toNat]
  | .jumpIfZero ra t => [regName ra, natText t.toNat]

/-- The assembly text of an instruction (rule R62). -/
def instrText (i : Instr) : List Char :=
  match operandTexts i with
  | [] => mnemonicOf i
  | op :: rest => mnemonicOf i ++ ' ' :: joinOperands (op :: rest)

end Sys2Proof.Machine
end

