-- ==== Sys2Proof/Machine/HostInterface.lean ====
section
/-! DEFINITION. The five host operations (spec/50_interfaces.md rules R120 to R124), the result codes (R135), what the output
ports show (R126), and the byte image of a program for a host tool (R33, D13). -/

namespace Sys2Proof.Machine

/-! ## create, load, readRegister -/

/-- `create()`: reset, the one kind there is; it may be applied in any status (rules R120, R150). -/
def create (_ : State) : State := State.reset

/-- `load(p)`: installs the program and changes nothing else; legal once, after create and before the first cycle
(rule R121). Every other use is refused (U3), and so is a store that is too long (V4). -/
def load (p : Memory) (s : State) : Host.Outcome State Fault Refusal :=
  if s.loadOpen then
    if p.wf then .next { s with prog := p, loadOpen := false } else .refused .programTooLong
  else .refused .loadMisplaced

/-- `readRegister(r)`: a snapshot of one slot, in any status (rule R123). -/
def readRegister (r : Reg) (s : State) : Word := s.readReg r

/-- The register that a 3-bit index selects (rules R11, R123; `reg_sel` of R126). -/
def regOfSelect (i : BitVec 3) : Reg :=
  match i.toNat with
  | 0 => .pc
  | 1 => .a
  | 2 => .b
  | 3 => .c
  | 4 => .d
  | 5 => .e
  | 6 => .f
  | _ => .g

/-! ## run -/

/-- The loop of `run()` (rule R77), cut after `k` steps. -/
def runFor : Nat → State → Host.Outcome State Fault Refusal
  | 0, s => .next s
  | k + 1, s =>
    match s.status with
    | .halted => .next s
    | .faulted _ => .next s
    | .running =>
      match step s with
      | .next t => runFor k t
      | .fault f => .fault f
      | .refused r => .refused r

/-- `run()` started in `s` returns, with the machine in `t` (rules R77, R122; notes/assumptions/12.md). -/
def RunReturns (s t : State) : Prop := ∃ k, runFor k s = .next t ∧ t.status ≠ .running

/-- `run()` started in `s` never returns: a hang (rules R77, R147, U12). -/
def Hangs (s : State) : Prop := ∀ k, ∃ t, runFor k s = .next t ∧ t.status = .running

/-! ## The result (rules R125, R135) -/

/-- The 3-bit STATUS code of rule R135; 6 and 7 are never produced (V1). -/
def Status.code (st : Status) : BitVec 3 :=
  match st with
  | .running => 0
  | .halted => 1
  | .faulted .outOfBounds => 2
  | .faulted .divisionByZero => 3
  | .faulted .undefinedOpcode => 4
  | .faulted .illegalRegister => 5

/-- What the output ports and `prog_len` show between cycles (rule R126, informative; notes/assumptions/15.md). -/
structure Ports where
  /-- `PLEN`. -/
  progLen : BitVec 32
  /-- The index presented to the Program Store, none where the bounds check fails. -/
  progAddr : Option (BitVec 32)
  /-- The STATUS code. -/
  status : BitVec 3
  /-- `x[reg_sel]`. -/
  regVal : BitVec 32
  deriving DecidableEq, Repr

/-- The ports in state `s` when the host selects the register `regSel` (rule R126). -/
def ports (s : State) (regSel : BitVec 3) : Ports where
  progLen := BitVec.ofNat 32 s.prog.plen
  progAddr := if s.fetchWord.isSome then some (s.readReg .pc) else none
  status := s.status.code
  regVal := readRegister (regOfSelect regSel) s

/-! ## The host operations as transitions -/

/-- An operation of the host that can move the machine; `run` is the iteration of `step` (rules R124, R127). -/
inductive HostOp where
  | create
  | load (p : Memory)
  | step
  | readRegister (r : Reg)
  deriving DecidableEq, Repr

/-- What a host operation does to the machine (rules R120, R121, R123, R124). -/
def HostOp.apply (o : HostOp) (s : State) : Host.Outcome State Fault Refusal :=
  match o with
  | .create => .next (Machine.create s)
  | .load p => Machine.load p s
  | .step => Machine.step s
  | .readRegister _ => .next s

/-! ## The byte image of a program (rule R33, decision D13) -/

/-- The four bytes of a word, `w[7:0]` first (rule R33). -/
def wordImage (w : Word) : List Byte :=
  [w.extractLsb' 0 8, w.extractLsb' 8 8, w.extractLsb' 16 8, w.extractLsb' 24 8]

/-- The word of four bytes, the least significant first (rule R33). -/
def wordOfImage (b0 b1 b2 b3 : Byte) : Word :=
  (b3.setWidth 32 <<< 24) ||| (b2.setWidth 32 <<< 16) ||| (b1.setWidth 32 <<< 8) ||| b0.setWidth 32

/-- The image of a program, the word of index 0 first (notes/assumptions/13.md). -/
def programImage (m : Memory) : List Byte :=
  match m with
  | [] => []
  | w :: rest => wordImage w ++ programImage rest

/-- The program of an image, none where the bytes are no whole number of words. -/
def programOfImage (bs : List Byte) : Option Memory :=
  match bs with
  | [] => some []
  | b0 :: b1 :: b2 :: b3 :: rest => (programOfImage rest).map (wordOfImage b0 b1 b2 b3 :: ·)
  | _ => none

end Sys2Proof.Machine
end

