-- ==== Sys2Proof/Safety.lean ====
section
/-! DEFINITION. What counts as a safe state (rule R147), the states the host can reach, and what a terminal status says about
the instruction that left it (rules R138, R139). -/

namespace Sys2Proof.Machine

/-- Nothing went wrong: holds in Running and Halted, fails in every Faulted(c) (rule R147). -/
def State.safe (s : State) : Bool :=
  match s.status with
  | .running => true
  | .halted => true
  | .faulted _ => false

/-- No cycle runs any more (rules R17, R71). -/
def State.terminal (s : State) : Bool :=
  match s.status with
  | .running => false
  | .halted => true
  | .faulted _ => true

/-- The states the host can bring the machine into: create, then host operations in any order (rules R120 to R124). -/
inductive Reachable : State → Prop where
  | created (s : State) : Reachable (create s)
  | operated (o : HostOp) (s t : State) : Reachable s → o.apply s = .next t → Reachable t

/-- The word before the program counter, which is the last one fetched where no handler has written slot 0. -/
def State.lastFetched (s : State) : Option Word := s.prog.progRead (signed (s.readReg .pc) - 1)

/-- A terminal status names what slot 0 still shows (rule R139): the word at `x[0] - 1` is a Halt or raises the recorded fault
in the registers as they stand; for OutOfBounds, the index `x[0]` itself cannot be fetched. -/
def State.statusExplained (s : State) : Prop :=
  match s.status with
  | .running => True
  | .halted => ∃ w, s.lastFetched = some w ∧ decode w = .instr .halt
  | .faulted .outOfBounds => s.fetchWord = none
  | .faulted .undefinedOpcode =>
    ∃ w, s.lastFetched = some w ∧ decode w = .undefinedOpcode
  | .faulted .illegalRegister => ∃ w, s.lastFetched = some w ∧ decode w = .illegalRegister
  | .faulted .divisionByZero =>
    ∃ w ra rb rc, s.lastFetched = some w ∧ decode w = .instr (.div ra rb rc) ∧ s.readReg rb = 0#32

/-- The invariant of the model: the Program Store has a legal length (R4), the value-stack is empty (R21), a terminal status is
explained (R139), and while the load window is open the machine is as reset left it (R23, R121). -/
structure State.Inv (s : State) : Prop where
  progWf : s.prog.wf = true
  valueStackEmpty : s.valueStack = []
  explained : s.statusExplained
  loadWindow : s.loadOpen = true → s = State.reset

end Sys2Proof.Machine
end

