-- ==== Sys2Proof/Certificates/Slice0/Obligations.lean ====
section
/-! DEFINITION. The statements for the provers. Values are said in Lean's own bit-vector and integer arithmetic, not by the
functions the meanings call, wherever that is possible. -/

namespace Sys2Proof.Claims

open Sys2Proof.Machine

/-! ## Words the statements use -/

/-- `t` is `s` with register `rd` at `v` and nothing else changed: no other register, not the status, not a word of the
Program Store (equal stores answer the same word at every index), not the value-stack, not the load window. -/
def RegWritten (s t : State) (rd : Reg) (v : Word) : Prop :=
  t.readReg rd = v ∧ (∀ r, r ≠ rd → t.readReg r = s.readReg r) ∧ t.status = s.status ∧ t.prog = s.prog ∧
    t.valueStack = s.valueStack ∧ t.loadOpen = s.loadOpen

/-- `t` is `s` with the status at `st` and nothing else changed. -/
def StatusWritten (s t : State) (st : Status) : Prop :=
  t.status = st ∧ (∀ r, t.readReg r = s.readReg r) ∧ t.prog = s.prog ∧ t.valueStack = s.valueStack ∧ t.loadOpen = s.loadOpen

/-- A cycle can run in `s`, on a Program Store of a legal length, and its fetch reads `w`. -/
abbrev Fetches (s : State) (w : Word) : Prop := s.status = .running ∧ s.prog.wf = true ∧ s.fetchWord = some w

/-- The registers after the fetch increment (rule R72). -/
def fetched (s : State) : Reg → Word := fun r => if r = .pc then s.readReg .pc + 1#32 else s.readReg r

/-- Registers `x` with slot `rd` at `v`. -/
def upd (x : Reg → Word) (rd : Reg) (v : Word) : Reg → Word := fun r => if r = rd then v else x r

/-- One step of `s` answers a next state with the registers `x`, the status `st`, and the Program Store and the value-stack
as they were. -/
def StepEnds (s : State) (x : Reg → Word) (st : Status) : Prop :=
  ∃ t, step s = .next t ∧ (∀ r, t.readReg r = x r) ∧ t.status = st ∧ t.prog = s.prog ∧ t.valueStack = s.valueStack

/-- The word with the bytes `op`, `ra`, `hi`, `lo` at bits 31:24, 23:16, 15:8, 7:0 (rule R51). -/
def rawWord (op ra hi lo : Byte) : Word := op ++ ra ++ hi ++ lo

/-- The three-register instruction of opcode `op` writes `f (x[ra]) (x[rb])` to `x[rc]`, for every fetched word of that opcode
with legal fields, and raises IllegalRegister for every other one. -/
def BinaryWord (op : Byte) (f : Word → Word → Word) : Prop :=
  ∀ (s : State) (ra rb rc : Byte), Fetches s (rawWord op ra rb rc) →
    (∀ r1 r2 r3 : Reg, r1.index = ra → r2.index = rb → r3.index = rc →
      StepEnds s (upd (fetched s) r3 (f (fetched s r1) (fetched s r2))) .running) ∧
    (7 < ra.toNat ∨ 7 < rb.toNat ∨ 7 < rc.toNat → StepEnds s (fetched s) (.faulted .illegalRegister))

/-- `k` host steps one after another, stopping where a step answers no next state (rule R124). -/
def stepTimes : Nat → State → Host.Outcome State Fault Refusal
  | 0, s => .next s
  | k + 1, s =>
    match step s with
    | .next t => stepTimes k t
    | .fault f => .fault f
    | .refused r => .refused r

/-- The registers an instruction's handler may write (rule R13). -/
def dests (i : Instr) : List Reg :=
  match i with
  | .halt => []
  | .load ra _ => [ra]
  | .store => []
  | .inc ra => [ra]
  | .dec ra => [ra]
  | .add _ _ rc => [rc]
  | .sub _ _ rc => [rc]
  | .mul _ _ rc => [rc]
  | .div _ _ rc => [rc]
  | .and _ _ rc => [rc]
  | .jump _ => [.pc]
  | .jumpIfZero _ _ => [.pc]

/-- The registers an instruction's handler reads (rule R13). -/
def sources (i : Instr) : List Reg :=
  match i with
  | .halt => []
  | .load _ _ => []
  | .store => []
  | .inc ra => [ra]
  | .dec ra => [ra]
  | .add ra rb _ => [ra, rb]
  | .sub ra rb _ => [ra, rb]
  | .mul ra rb _ => [ra, rb]
  | .div ra rb _ => [ra, rb]
  | .and ra rb _ => [ra, rb]
  | .jump _ => []
  | .jumpIfZero ra _ => [ra]

/-- The value a handler gives to slot 0 when its destination field names PC, from the registers `y` that it reads (rule R113);
none for the instructions that have no such field, and for Div with a zero divisor. -/
def valueForPc (y : Reg → Word) (i : Instr) : Option Word :=
  match i with
  | .halt => none
  | .load ra v => if ra = .pc then some v else none
  | .store => none
  | .inc ra => if ra = .pc then some (y .pc + 1#32) else none
  | .dec ra => if ra = .pc then some (y .pc - 1#32) else none
  | .add ra rb rc => if rc = .pc then some (y ra + y rb) else none
  | .sub ra rb rc => if rc = .pc then some (y ra - y rb) else none
  | .mul ra rb rc => if rc = .pc then some (y ra * y rb) else none
  | .div ra rb rc =>
    if rc = .pc ∧ y rb ≠ 0#32 then some (BitVec.ofInt 32 (Int.tdiv (y ra).toInt (y rb).toInt)) else none
  | .and ra rb rc => if rc = .pc then some (if y ra ≠ 0#32 ∧ y rb ≠ 0#32 then 1#32 else 0#32) else none
  | .jump _ => none
  | .jumpIfZero _ _ => none

/-! ## A reference cycle over plain numbers, written from rule R75 alone: no decoder, no ALU and no register file of the model -/

/-- The signed reading of a number below 2^32. -/
def sgn (n : Nat) : Int := if n < 2147483648 then (n : Int) else (n : Int) - 4294967296

/-- The registers as numbers, in index order. -/
def numbers (s : State) : List Nat :=
  [s.x.pc.toNat, s.x.a.toNat, s.x.b.toNat, s.x.c.toNat, s.x.d.toNat, s.x.e.toNat, s.x.f.toNat, s.x.g.toNat]

/-- The truncated quotient of two signed readings, modulo 2^32. -/
def quotient (a b : Nat) : Nat :=
  if decide (a < 2147483648) = decide (b < 2147483648) then (sgn a).natAbs / (sgn b).natAbs % 4294967296
  else (4294967296 - (sgn a).natAbs / (sgn b).natAbs) % 4294967296

/-- The cycle of rule R75 on the registers `x` and the Program Store `prog`, all as numbers: the registers and the status it
ends with. -/
def referenceCycle (x prog : List Nat) : List Nat × Status :=
  let i := sgn (x.getD 0 0)
  if i < 0 ∨ (prog.length : Int) ≤ i then (x, .faulted .outOfBounds)
  else
    let w := prog.getD i.toNat 0
    let y := x.set 0 ((x.getD 0 0 + 1) % 4294967296)
    let ra := w / 65536 % 256
    let rb := w / 256 % 256
    let rc := w % 256
    let p := w % 65536
    let a := y.getD ra 0
    let b := y.getD rb 0
    let one (v : Nat) : List Nat × Status :=
      if 7 < ra then (y, .faulted .illegalRegister) else (y.set ra v, .running)
    let three (v : Nat) : List Nat × Status :=
      if 7 < ra ∨ 7 < rb ∨ 7 < rc then (y, .faulted .illegalRegister) else (y.set rc v, .running)
    match w / 16777216 with
    | 0 => (y, .halted)
    | 1 => one (if p < 32768 then p else p + 4294901760)
    | 2 => (y, .faulted .undefinedOpcode)
    | 3 => one ((a + 1) % 4294967296)
    | 4 => one ((a + 4294967295) % 4294967296)
    | 5 => three ((a + b) % 4294967296)
    | 6 => three ((a + (4294967296 - b)) % 4294967296)
    | 7 => three (a * b % 4294967296)
    | 8 =>
      if 7 < ra ∨ 7 < rb ∨ 7 < rc then (y, .faulted .illegalRegister)
      else if b = 0 then (y, .faulted .divisionByZero)
      else (y.set rc (quotient a b), .running)
    | 9 => three (if a = 0 ∨ b = 0 then 0 else 1)
    | 10 => (y.set 0 p, .running)
    | 11 =>
      if 7 < ra then (y, .faulted .illegalRegister)
      else if a = 0 then (y.set 0 p, .running)
      else (y, .running)
    | _ => (y, .faulted .undefinedOpcode)

end Sys2Proof.Claims

open Sys2Proof Sys2Proof.Machine Sys2Proof.Claims

/-! ## What each instruction does, in every state and for every operand -/

/-- Halt completes everywhere: the status becomes Halted and nothing else changes. -/
def Obligations.HaltCompletes : Prop := ∀ s : State, ∃ t, exec .halt s = .next t ∧ StatusWritten s t .halted

/-- Load completes everywhere: `ra`, slot 0 too, holds the extended immediate and nothing else changes. -/
def Obligations.LoadCompletes : Prop :=
  ∀ (ra : Reg) (v : Word) (s : State), ∃ t, exec (.load ra v) s = .next t ∧ RegWritten s t ra v

/-- Store takes UndefinedOpcode everywhere: its whole effect (`exec` gives it a meaning though the decoder raises first:
notes/assumptions/5.md). -/
def Obligations.StoreTakesUndefinedOpcode : Prop :=
  ∀ s : State, ∃ t, exec .store s = .next t ∧ StatusWritten s t (.faulted .undefinedOpcode)

/-- Inc completes everywhere. -/
def Obligations.IncCompletes : Prop :=
  ∀ (ra : Reg) (s : State), ∃ t, exec (.inc ra) s = .next t ∧ RegWritten s t ra (s.readReg ra + 1#32)

/-- Dec completes everywhere. -/
def Obligations.DecCompletes : Prop :=
  ∀ (ra : Reg) (s : State), ∃ t, exec (.dec ra) s = .next t ∧ RegWritten s t ra (s.readReg ra - 1#32)

/-- Add completes everywhere. -/
def Obligations.AddCompletes : Prop :=
  ∀ (ra rb rc : Reg) (s : State), ∃ t,
    exec (.add ra rb rc) s = .next t ∧ RegWritten s t rc (s.readReg ra + s.readReg rb)

/-- Sub completes everywhere. -/
def Obligations.SubCompletes : Prop :=
  ∀ (ra rb rc : Reg) (s : State), ∃ t,
    exec (.sub ra rb rc) s = .next t ∧ RegWritten s t rc (s.readReg ra - s.readReg rb)

/-- Mul completes everywhere. -/
def Obligations.MulCompletes : Prop :=
  ∀ (ra rb rc : Reg) (s : State), ∃ t,
    exec (.mul ra rb rc) s = .next t ∧ RegWritten s t rc (s.readReg ra * s.readReg rb)

/-- Div completes for every divisor but zero, with the quotient truncated toward zero and wrapped (the one wrapping quotient is
notes/assumptions/11.md). -/
def Obligations.DivCompletes : Prop :=
  ∀ (ra rb rc : Reg) (s : State), s.readReg rb ≠ 0#32 → ∃ t,
    exec (.div ra rb rc) s = .next t ∧
      RegWritten s t rc (BitVec.ofInt 32 (Int.tdiv (s.readReg ra).toInt (s.readReg rb).toInt))

/-- Div with a zero divisor takes DivisionByZero and writes no register. -/
def Obligations.DivByZeroTakesFault : Prop :=
  ∀ (ra rb rc : Reg) (s : State), s.readReg rb = 0#32 → ∃ t,
    exec (.div ra rb rc) s = .next t ∧ StatusWritten s t (.faulted .divisionByZero)

/-- And completes everywhere: 1 when both sources are nonzero, else 0. -/
def Obligations.AndCompletes : Prop :=
  ∀ (ra rb rc : Reg) (s : State), ∃ t, exec (.and ra rb rc) s = .next t ∧
    RegWritten s t rc (if s.readReg ra ≠ 0#32 ∧ s.readReg rb ≠ 0#32 then 1#32 else 0#32)

/-- Jump completes everywhere, whatever the target. -/
def Obligations.JumpCompletes : Prop :=
  ∀ (target : Word) (s : State), ∃ t, exec (.jump target) s = .next t ∧ RegWritten s t .pc target

/-- JumpIfZero completes everywhere: taken for a zero register, else nothing is written. -/
def Obligations.JumpIfZeroCompletes : Prop :=
  ∀ (ra : Reg) (target : Word) (s : State),
    if s.readReg ra = 0#32 then ∃ t, exec (.jumpIfZero ra target) s = .next t ∧ RegWritten s t .pc target
    else exec (.jumpIfZero ra target) s = .next s

/-! ## What one cycle does with each instruction word -/

/-- A fetched Halt word, whatever its low 24 bits, ends the run with the fetch increment made; the step after it changes
nothing (the latter is notes/assumptions/4.md). -/
def Obligations.HaltWordEndsTheRun : Prop :=
  ∀ (s : State) (ra hi lo : Byte), Fetches s (rawWord 0 ra hi lo) →
    StepEnds s (fetched s) .halted ∧ ∀ t, step s = .next t → step t = .next t

/-- Rule R90 whole: the sign-extended immediate goes to `ra`, an illegal `ra` faults, and for PC the next fetch is at the
signed immediate, which faults outside the Program Store. -/
def Obligations.LoadWordLoadsImmediate : Prop :=
  ∀ (s : State) (ra hi lo : Byte), Fetches s (rawWord 1 ra hi lo) →
    (∀ r : Reg, r.index = ra →
      StepEnds s (upd (fetched s) r (BitVec.ofInt 32 (hi ++ lo : BitVec 16).toInt)) .running) ∧
    (7 < ra.toNat → StepEnds s (fetched s) (.faulted .illegalRegister)) ∧
    (ra = 0#8 → ∀ t, step s = .next t → t.fetchWord = s.prog.progRead (hi ++ lo : BitVec 16).toInt ∧
      ((hi ++ lo : BitVec 16).toInt < 0 ∨ (s.prog.length : Int) ≤ (hi ++ lo : BitVec 16).toInt →
        StepEnds t t.readReg (.faulted .outOfBounds)))

/-- Rule R91 whole: every word of opcode 2 raises UndefinedOpcode after the fetch increment. -/
def Obligations.StoreWordFaults : Prop :=
  ∀ (s : State) (ra hi lo : Byte), Fetches s (rawWord 2 ra hi lo) → StepEnds s (fetched s) (.faulted .undefinedOpcode)

/-- Rule R95 whole: Inc on the register as the fetch left it. -/
def Obligations.IncWordAddsOne : Prop :=
  ∀ (s : State) (ra hi lo : Byte), Fetches s (rawWord 3 ra hi lo) →
    (∀ r : Reg, r.index = ra → StepEnds s (upd (fetched s) r (fetched s r + 1#32)) .running) ∧
    (7 < ra.toNat → StepEnds s (fetched s) (.faulted .illegalRegister))

/-- Rule R96 whole: Dec on the register as the fetch left it; `Dec PC` repeats for ever. -/
def Obligations.DecWordSubtractsOne : Prop :=
  ∀ (s : State) (ra hi lo : Byte), Fetches s (rawWord 4 ra hi lo) →
    (∀ r : Reg, r.index = ra → StepEnds s (upd (fetched s) r (fetched s r - 1#32)) .running) ∧
    (7 < ra.toNat → StepEnds s (fetched s) (.faulted .illegalRegister)) ∧
    (ra = 0#8 → Hangs s)

/-- Rule R100 whole. -/
def Obligations.AddWordAdds : Prop := BinaryWord 5 (fun a b => a + b)

/-- Rule R101 whole: minuend first. -/
def Obligations.SubWordSubtracts : Prop := BinaryWord 6 (fun a b => a - b)

/-- Rule R102 whole: the low half of the product. -/
def Obligations.MulWordMultiplies : Prop := BinaryWord 7 (fun a b => a * b)

/-- The quotient of rule R103, the zero divisor, the illegal field before it, and the divisor PC that never faults. The one
overflowing quotient rests on notes/assumptions/11.md. -/
def Obligations.DivWordDivides : Prop :=
  ∀ (s : State) (ra rb rc : Byte), Fetches s (rawWord 8 ra rb rc) →
    (∀ r1 r2 r3 : Reg, r1.index = ra → r2.index = rb → r3.index = rc →
      if fetched s r2 = 0#32 then StepEnds s (fetched s) (.faulted .divisionByZero)
      else StepEnds s (upd (fetched s) r3
        (BitVec.ofInt 32 (Int.tdiv (fetched s r1).toInt (fetched s r2).toInt))) .running) ∧
    (7 < ra.toNat ∨ 7 < rb.toNat ∨ 7 < rc.toNat → StepEnds s (fetched s) (.faulted .illegalRegister)) ∧
    (rb = 0#8 → ∀ t, step s = .next t → t.status ≠ .faulted .divisionByZero)

/-- Rule R104 whole: the logical AND. -/
def Obligations.AndWordIsLogical : Prop :=
  BinaryWord 9 (fun a b => if a ≠ 0#32 ∧ b ≠ 0#32 then 1#32 else 0#32)

/-- Rule R111 whole: the absolute target, `w[23:16]` ignored, unchecked until the next fetch, which faults outside the
Program Store; a Jump to its own index hangs. -/
def Obligations.JumpWordReplacesPc : Prop :=
  ∀ (s : State) (ra hi lo : Byte), Fetches s (rawWord 10 ra hi lo) →
    StepEnds s (upd (fetched s) .pc ((hi ++ lo : BitVec 16).setWidth 32)) .running ∧
    (∀ t, step s = .next t → t.fetchWord = s.prog.progRead ((hi ++ lo : BitVec 16).toNat : Int) ∧
      (s.prog.length ≤ (hi ++ lo : BitVec 16).toNat →
        StepEnds t (upd (fetched s) .pc ((hi ++ lo : BitVec 16).setWidth 32)) (.faulted .outOfBounds))) ∧
    (((hi ++ lo : BitVec 16).toNat : Int) = (s.readReg .pc).toInt → Hangs s)

/-- Rule R112 whole: taken exactly for zero, the target unchecked until the next fetch, which faults outside
the Program Store, never taken on PC. -/
def Obligations.JumpIfZeroWordTestsRegister : Prop :=
  ∀ (s : State) (ra hi lo : Byte), Fetches s (rawWord 11 ra hi lo) →
    (∀ r : Reg, r.index = ra →
      if fetched s r = 0#32 then
        StepEnds s (upd (fetched s) .pc ((hi ++ lo : BitVec 16).setWidth 32)) .running ∧
          ∀ t, step s = .next t → t.fetchWord = s.prog.progRead ((hi ++ lo : BitVec 16).toNat : Int) ∧
            (s.prog.length ≤ (hi ++ lo : BitVec 16).toNat →
              StepEnds t (upd (fetched s) .pc ((hi ++ lo : BitVec 16).setWidth 32)) (.faulted .outOfBounds))
      else StepEnds s (fetched s) .running) ∧
    (7 < ra.toNat → StepEnds s (fetched s) (.faulted .illegalRegister)) ∧
    (ra = 0#8 → StepEnds s (fetched s) .running)

/-! ## Fatal conditions -/

/-- Rules R32 and R131: a program counter outside the Program Store faults and changes no register; inside it the word at
that index is fetched; a Halt at the last index leaves the counter at `PLEN`. -/
def Obligations.FetchOutsideStoreFaults : Prop :=
  ∀ s : State, s.status = .running → s.prog.wf = true →
    if 0 ≤ (s.readReg .pc).toInt ∧ (s.readReg .pc).toInt < (s.prog.length : Int) then
      ∃ w, s.prog[(s.readReg .pc).toInt.toNat]? = some w ∧ s.fetchWord = some w ∧
        ((s.readReg .pc).toInt + 1 = (s.prog.length : Int) → decode w = .instr .halt →
          ∃ t, step s = .next t ∧ t.status = .halted ∧ (t.readReg .pc).toInt = (s.prog.length : Int))
    else s.fetchWord = none ∧ StepEnds s s.readReg (.faulted .outOfBounds)

/-- Rules R59 and R133: the opcode values 2 and 12 to 255 raise UndefinedOpcode after the fetch increment, whatever the
other fields hold. -/
def Obligations.UndefinedOpcodeWordFaults : Prop :=
  ∀ (s : State) (op ra hi lo : Byte), Fetches s (rawWord op ra hi lo) → op = 2#8 ∨ 12 ≤ op.toNat →
    StepEnds s (fetched s) (.faulted .undefinedOpcode)

/-- Rules R58 and R134: a read register field of 8 to 255 under a defined opcode raises IllegalRegister after the fetch
increment; the check applies to no field that the format does not read. -/
def Obligations.IllegalRegisterFieldFaults : Prop :=
  ∀ (s : State) (op ra hi lo : Byte), Fetches s (rawWord op ra hi lo) →
    (op = 1#8 ∨ op = 3#8 ∨ op = 4#8 ∨ op = 11#8 → 7 < ra.toNat → StepEnds s (fetched s) (.faulted .illegalRegister)) ∧
    (5 ≤ op.toNat → op.toNat ≤ 9 → 7 < ra.toNat ∨ 7 < hi.toNat ∨ 7 < lo.toNat →
      StepEnds s (fetched s) (.faulted .illegalRegister)) ∧
    (op = 1#8 ∨ op = 3#8 ∨ op = 4#8 ∨ op = 11#8 → ra.toNat ≤ 7 →
      ∀ t, step s = .next t → t.status ≠ .faulted .illegalRegister) ∧
    (5 ≤ op.toNat → op.toNat ≤ 9 → ra.toNat ≤ 7 → hi.toNat ≤ 7 → lo.toNat ≤ 7 →
      ∀ t, step s = .next t → t.status ≠ .faulted .illegalRegister) ∧
    (op = 0#8 ∨ op = 2#8 ∨ op = 10#8 → ∀ t, step s = .next t → t.status ≠ .faulted .illegalRegister)

/-- How a cycle ends is decided by what it fetched: each terminal status has its one cause. -/
def Obligations.StatusAfterCycleNamesItsCause : Prop :=
  ∀ s t : State, s.status = .running → step s = .next t →
    (t.status = .faulted .outOfBounds ↔ s.fetchWord = none) ∧
    (t.status = .halted ↔ ∃ w, s.fetchWord = some w ∧ decode w = .instr .halt) ∧
    (t.status = .faulted .undefinedOpcode ↔
      ∃ w, s.fetchWord = some w ∧ decode w = .undefinedOpcode) ∧
    (t.status = .faulted .illegalRegister ↔ ∃ w, s.fetchWord = some w ∧ decode w = .illegalRegister) ∧
    (t.status = .faulted .divisionByZero ↔
      ∃ w ra rb rc, s.fetchWord = some w ∧ decode w = .instr (.div ra rb rc) ∧ fetched s rb = 0#32)

/-- Fatal conditions are precise: no register but slot 0 changes, and slot 0 tells the index of the faulting instruction. -/
def Obligations.FaultsArePrecise : Prop :=
  ∀ (s t : State) (c : FatalCondition), s.status = .running → step s = .next t → t.status = .faulted c →
    (∀ r, r ≠ .pc → t.readReg r = s.readReg r) ∧ t.prog = s.prog ∧ t.valueStack = s.valueStack ∧
    (if c = .outOfBounds then t.readReg .pc = s.readReg .pc
     else (t.readReg .pc).toInt - 1 = (s.readReg .pc).toInt ∧ t.lastFetched = s.fetchWord)

/-! ## The cycle -/

/-- A step runs the decoded instruction on the state after the fetch increment. For a Store word, which only its row names, the
step is what `exec` says of Store (notes/assumptions/5.md). -/
def Obligations.StepRunsDecodedInstruction : Prop :=
  ∀ (s : State) (w : Word) (i : Instr), Fetches s w → decode w = .instr i ∨ readRow w = .instr i →
    step s = exec i s.afterFetch ∧ (∀ r, s.afterFetch.readReg r = fetched s r) ∧ s.afterFetch.status = s.status ∧
      s.afterFetch.prog = s.prog ∧ s.afterFetch.valueStack = s.valueStack ∧ s.afterFetch.loadOpen = false

/-- In status Running a step is the cycle of rule R75's pseudocode, recomputed over plain numbers. The one overflowing
quotient rests on notes/assumptions/11.md. -/
def Obligations.StepIsReferenceCycle : Prop :=
  ∀ s : State, s.status = .running → s.prog.wf = true →
    ∃ t, step s = .next t ∧ (numbers t, t.status) = referenceCycle (numbers s) (s.prog.map BitVec.toNat) ∧
      t.prog = s.prog ∧ t.valueStack = s.valueStack

/-- The program counter after a cycle: incremented once, unless the handler's destination is slot 0 or a jump is taken; then
the value written, or the target (the one overflowing quotient is notes/assumptions/11.md). -/
def Obligations.PcAfterCycle : Prop :=
  ∀ (s t : State) (w : Word), Fetches s w → step s = .next t →
    (t.status ≠ .running → t.readReg .pc = s.readReg .pc + 1#32) ∧
    (∀ i, decode w = .instr i → .pc ∉ dests i → t.readReg .pc = s.readReg .pc + 1#32) ∧
    (∀ i v, decode w = .instr i → valueForPc (fetched s) i = some v → t.status = .running ∧ t.readReg .pc = v) ∧
    (∀ target, decode w = .instr (.jump target) → t.readReg .pc = target) ∧
    (∀ ra target, decode w = .instr (.jumpIfZero ra target) →
      t.readReg .pc = if fetched s ra = 0#32 then target else s.readReg .pc + 1#32)

/-- While the status is Running, a step always answers a next state, in one of the three outcomes, and closes the load window
(the window is notes/assumptions/6.md). -/
def Obligations.RunningAlwaysSteps : Prop :=
  ∀ s : State, s.status = .running → s.prog.wf = true → ∃ t, step s = .next t ∧ t.loadOpen = false

/-- A handler writes at most its destination, and sets the status only for Halt, Store and Div (that `exec` gives Store a meaning
is notes/assumptions/5.md). -/
def Obligations.ExecWritesOnlyItsDestination : Prop :=
  ∀ (i : Instr) (s t : State), exec i s = .next t →
    (∀ r, r ∉ dests i → t.readReg r = s.readReg r) ∧ t.prog = s.prog ∧ t.valueStack = s.valueStack ∧
    t.loadOpen = s.loadOpen ∧
    (t.status = s.status ∨ (t.status = .halted ∧ i = .halt) ∨
      (t.status = .faulted .undefinedOpcode ∧ i = .store) ∨
      (t.status = .faulted .divisionByZero ∧ ∃ ra rb rc, i = .div ra rb rc ∧ s.readReg rb = 0#32))

/-- A register that an instruction does not read cannot influence any other register, the status or the outcome. -/
def Obligations.UnreadRegistersDoNotMatter : Prop :=
  ∀ (i : Instr) (s t : State) (r : Reg) (v : Word), exec i s = .next t → r ∉ sources i →
    ∃ u, exec i (s.writeReg r v) = .next u ∧ u.status = t.status ∧ ∀ q, q ≠ r → u.readReg q = t.readReg q

/-- No step changes the Program Store or the value-stack. -/
def Obligations.StepKeepsProgramAndStack : Prop :=
  ∀ s t : State, step s = .next t → t.prog = s.prog ∧ t.valueStack = s.valueStack

/-! ## Invariant -/

/-- Every step keeps the invariant, from every state that has it. -/
def Obligations.StepKeepsInvariant : Prop := ∀ s t : State, s.Inv → step s = .next t → t.Inv

/-- Reset has the invariant. -/
def Obligations.ResetHasInvariant : Prop := State.reset.Inv

/-- Every state the host can reach has the invariant, and every step from it answers a next state. -/
def Obligations.ReachableStatesAreSound : Prop := ∀ s : State, Reachable s → s.Inv ∧ ∃ t, step s = .next t

/-- A terminal status is left by create only: steps, runs and reads keep the state and no load is accepted
(step in a terminal status is notes/assumptions/4.md). -/
def Obligations.TerminalLeftOnlyByCreate : Prop :=
  ∀ s : State, s.Inv → s.terminal = true →
    (∀ k, runFor k s = .next s) ∧ ∀ (o : HostOp) (t : State), o.apply s = .next t → t = s ∨ (o = .create ∧ t = State.reset)

/-! ## Decode and encode -/

/-- The canonical word of a well-formed instruction has that instruction's row and decodes to it; for Store the decoder answers
UndefinedOpcode, as rule R61 says (the row's name for a Store word is notes/assumptions/5.md). -/
def Obligations.DecodeEncodeRoundTrip : Prop :=
  ∀ i : Instr, i.wellFormed = true →
    readRow (encode i) = .instr i ∧ decode (encode i) = if i = .store then .undefinedOpcode else .instr i

/-- A decoded instruction is never Store and is the one its word's row names; an instruction that a row names is well-formed, and
its canonical word is the word with the unread bits cleared (the row of a Store word is notes/assumptions/5.md). -/
def Obligations.DecodedIsCanonicalUpToUnreadBits : Prop :=
  (∀ (w : Word) (i : Instr), decode w = .instr i → i ≠ .store ∧ readRow w = .instr i) ∧
  ∀ (w : Word) (i : Instr), readRow w = .instr i → i.wellFormed = true ∧ encode i = w &&& i.readMask

/-- Words that agree on the bits the format reads have the same row and the same answer of the decoder (the row of a Store word
is notes/assumptions/5.md). -/
def Obligations.UnreadBitsAreIgnored : Prop :=
  ∀ (w v : Word) (i : Instr), readRow w = .instr i → w &&& i.readMask = v &&& i.readMask →
    readRow v = .instr i ∧ decode v = decode w

/-- Which words the decoder rejects, and by which name; a Store word is rejected, and its row names it
(notes/assumptions/5.md). -/
def Obligations.DecoderRejectsByName : Prop :=
  ∀ op ra hi lo : Byte,
    (decode (rawWord op ra hi lo) = .undefinedOpcode ↔ op = 2#8 ∨ 12 ≤ op.toNat) ∧
    (readRow (rawWord op ra hi lo) = .instr .store ↔ op = 2#8) ∧
    (decode (rawWord op ra hi lo) = .illegalRegister ↔
      ((op = 1#8 ∨ op = 3#8 ∨ op = 4#8 ∨ op = 11#8) ∧ 7 < ra.toNat) ∨
      (5 ≤ op.toNat ∧ op.toNat ≤ 9 ∧ (7 < ra.toNat ∨ 7 < hi.toNat ∨ 7 < lo.toNat)))

/-- Words of the spec's decoder vectors, one of each format, decode as the spec says. -/
def Obligations.SpecWordsDecode : Prop :=
  decode 0x00FFFFFF#32 = .instr .halt ∧ decode 0x0104000A#32 = .instr (.load .d 0x0000000A#32) ∧
  decode 0x01018000#32 = .instr (.load .a 0xFFFF8000#32) ∧ decode 0x03010ABC#32 = .instr (.inc .a) ∧
  decode 0x06010403#32 = .instr (.sub .a .d .c) ∧ decode 0x0A00FFFF#32 = .instr (.jump 0x0000FFFF#32) ∧
  decode 0x0B030002#32 = .instr (.jumpIfZero .c 0x00000002#32) ∧ decode 0x050102FF#32 = .illegalRegister ∧
  decode 0x02000000#32 = .undefinedOpcode ∧ decode 0x02FFFFFF#32 = .undefinedOpcode ∧
  decode 0x0C000000#32 = .undefinedOpcode

/-! ## The ALU -/

/-- Addition wraps, on either reading of the operands. That the unsigned reading gives the same bits is the sentence of
rule R83 that the spec marks "[from general knowledge, not in source]". -/
def Obligations.AluAddWraps : Prop :=
  (∀ a b : Word, aluAdd a b = BitVec.ofInt 32 (a.toInt + b.toInt) ∧
    (aluAdd a b).toNat = (a.toNat + b.toNat) % 2 ^ 32) ∧
  aluAdd 0x7FFFFFFF 1 = 0x80000000 ∧ aluAdd 0x80000000 0xFFFFFFFF = 0x7FFFFFFF ∧ ∀ a : Word, aluAdd a 0#32 = a

/-- Rule R85: the first operand is the minuend, and subtraction wraps. -/
def Obligations.AluSubWraps : Prop :=
  (∀ a b : Word, aluSub a b = BitVec.ofInt 32 (a.toInt - b.toInt)) ∧
  aluSub 0x80000000 1 = 0x7FFFFFFF ∧ aluSub 0x7FFFFFFF 0xFFFFFFFF = 0x80000000 ∧ aluSub 0 0x80000000 = 0x80000000 ∧
  (∀ a : Word, aluSub a a = 0#32) ∧ aluSub 1 10 = 0xFFFFFFF7 ∧
  ∀ (ra rb rc : Reg) (s : State), ∃ t,
    exec (.sub ra rb rc) s = .next t ∧ RegWritten s t rc (aluSub (s.readReg ra) (s.readReg rb))

/-- Multiplication keeps the low half of the product, on either reading of the operands. That the unsigned reading gives the
same bits is the sentence of rule R86 that the spec marks "[from general knowledge, not in source]". -/
def Obligations.AluMulKeepsLowHalf : Prop :=
  (∀ a b : Word, aluMul a b = BitVec.ofInt 32 (a.toInt * b.toInt) ∧
    (aluMul a b).toNat = (a.toNat * b.toNat) % 2 ^ 32) ∧
  aluMul 0x00010000 0x00010000 = 0 ∧ aluMul 0xFFFF8000 0x00008000 = 0xC0000000 ∧
  aluMul 0x80000000 0xFFFFFFFF = 0x80000000 ∧ aluMul 0x7FFFFFFF 2 = 0xFFFFFFFE ∧
  (∀ a : Word, aluMul a 0#32 = 0#32) ∧ (∀ a : Word, aluMul a 1#32 = a) ∧ aluMul 0xFFFFFFFF 0xFFFFFFFF = 1

/-- Rule R87: the logical AND of the truth values, 0 or 1, whatever the signs. -/
def Obligations.AluAndIsLogical : Prop :=
  ∀ a b : Word,
    (a ≠ 0#32 ∧ b ≠ 0#32 → aluAnd a b = 1#32) ∧ (a = 0#32 ∨ b = 0#32 → aluAnd a b = 0#32) ∧
    aluAnd 0x00000001 0x00000002 = 1#32 ∧ aluAnd 0xFFFFFFF0 0x0000000F = 1#32

/-- Rules R88 and R89: increment and decrement wrap. -/
def Obligations.AluIncAndDecWrap : Prop :=
  (∀ a : Word, aluInc a = BitVec.ofInt 32 (a.toInt + 1) ∧ aluDec a = BitVec.ofInt 32 (a.toInt - 1)) ∧
  aluInc 0x7FFFFFFF = 0x80000000 ∧ aluInc 0xFFFFFFFF = 0 ∧ aluDec 0x80000000 = 0x7FFFFFFF ∧ aluDec 0 = 0xFFFFFFFF

/-- Division: no quotient exactly for a zero divisor; -2^31 / -1 wraps (notes/assumptions/11.md); every other quotient is exact, with the magnitude
`floor(|a| / |b|)` and a sign that is not negative for agreeing signs and not positive for differing ones. -/
def Obligations.AluDivTruncatesTowardZero : Prop :=
  ∀ a b : Word,
    (aluDiv a b = none ↔ b = 0#32) ∧
    (a = 0x80000000#32 → b = 0xFFFFFFFF#32 → aluDiv a b = some 0x80000000#32) ∧
    (b ≠ 0#32 → ¬ (a = 0x80000000#32 ∧ b = 0xFFFFFFFF#32) →
      ∃ q, aluDiv a b = some q ∧ q.toInt = Int.tdiv a.toInt b.toInt ∧
        q.toInt.natAbs = a.toInt.natAbs / b.toInt.natAbs ∧
        ((a.toInt < 0 ↔ b.toInt < 0) → 0 ≤ q.toInt) ∧ (¬ (a.toInt < 0 ↔ b.toInt < 0) → q.toInt ≤ 0))

/-! ## Reset and the host -/

/-- Rule R23: what reset leaves, in every status create is called in. -/
def Obligations.ResetValues : Prop :=
  ∀ s : State, create s = State.reset ∧ (∀ r, State.reset.readReg r = 0#32) ∧ State.reset.status = .running ∧
    State.reset.prog = [] ∧ State.reset.prog.plen = 0 ∧ State.reset.valueStack = []

/-- `load` is accepted once, before the first cycle, for every sequence of words up to 2^31 - 1, and changes the Program Store
only; afterwards, and after the first cycle, every load is refused (the window is notes/assumptions/6.md). -/
def Obligations.LoadInstallsOnceBeforeFirstCycle : Prop :=
  ∀ (s : State) (p : Memory),
    (s.loadOpen = true → p.length ≤ 2147483647 → ∃ t, load p s = .next t ∧ t.prog = p ∧ t.status = s.status ∧
      (∀ r, t.readReg r = s.readReg r) ∧ t.valueStack = s.valueStack ∧ ∀ q, load q t = .refused .loadMisplaced) ∧
    (s.loadOpen = true → 2147483647 < p.length → load p s = .refused .programTooLong) ∧
    (s.status = .running → ∀ t, step s = .next t → load p t = .refused .loadMisplaced)

/-- The loop of `run`, which asks for the status before each cycle, is the iteration of `step`, which does not
(notes/assumptions/4.md). -/
def Obligations.RunIsIteratedStep : Prop := ∀ (k : Nat) (s : State), runFor k s = stepTimes k s

/-- A run returns in at most one state, and fails to return exactly when it hangs. -/
def Obligations.RunReturnsOrHangs : Prop :=
  ∀ s : State, s.prog.wf = true →
    ((∃ t, RunReturns s t) ↔ ¬ Hangs s) ∧ ∀ t u, RunReturns s t → RunReturns s u → t = u

/-- The STATUS codes tell the statuses apart, and 6 and 7 are never produced. -/
def Obligations.StatusCodesAreDistinct : Prop :=
  (∀ a b : Status, a.code = b.code → a = b) ∧ (∀ a : Status, a.code.toNat ≤ 5) ∧
  Status.code .running = 0 ∧ Status.code .halted = 1 ∧ Status.code (.faulted .outOfBounds) = 2 ∧
  Status.code (.faulted .divisionByZero) = 3 ∧ Status.code (.faulted .undefinedOpcode) = 4 ∧
  Status.code (.faulted .illegalRegister) = 5

/-- The next step after `withFetchWord` fetches and runs exactly that word (the model's own operation,
notes/assumptions/9.md and notes/assumptions/10.md). -/
def Obligations.WithFetchWordIsFetchedNext : Prop :=
  ∀ (s : State) (w : Word),
    Fetches (s.withFetchWord 32 w.toNat) w ∧
    step (s.withFetchWord 32 w.toNat) = decodeExecute w (s.withFetchWord 32 w.toNat).afterFetch

/-- The byte image of a word holds its bytes least significant first, the image of a program is that of its words in index
order, and it gives the program back (the order of the words is the model's, notes/assumptions/13.md). -/
def Obligations.ProgramImageRoundTrip : Prop :=
  (∀ op ra hi lo : Byte, wordImage (rawWord op ra hi lo) = [lo, hi, ra, op]) ∧
  (∀ (w : Word) (p : Memory), programImage (w :: p) = wordImage w ++ programImage p) ∧
  ∀ p : Memory, programOfImage (programImage p) = some p ∧ (programImage p).length = 4 * p.plen

/-- Reading the assembly text of a well-formed instruction gives the instruction back. -/
def Obligations.AssemblyTextRoundTrip : Prop := ∀ i : Instr, i.wellFormed = true → parseInstr (instrText i) = some i
end

