-- ==== Sys2Proof/Laws/Decode.lean ====
section
/-! SUPPORT. What the row of a word says of the decoder's answer. -/

namespace Sys2Proof

/-- The decoder raises UndefinedOpcode for every word of opcode 2 (rules R59, R61). -/
theorem decode_opcode_two {w : Word} (h : opField w = 2#8) : decode w = .undefinedOpcode := by
  unfold decode
  rw [h]
  rfl

/-- A word whose row is an instruction decodes to that instruction, or it is a Store word and the decoder raises. -/
theorem readRow_cases {w : Word} {i : Instr} (h : readRow w = .instr i) :
    (i = .store ∧ decode w = .undefinedOpcode) ∨ decode w = .instr i := by
  unfold readRow at h
  split at h
  · rename_i h2
    cases h
    exact .inl ⟨rfl, decode_opcode_two h2⟩
  · exact .inr h

end Sys2Proof
end

