-- ==== Sys2Proof/Laws/State.lean ====
section
/-! SUPPORT. What each update of the state does to each field, and reads after writes of the register file. -/

namespace Sys2Proof.Machine

/-! ## The register file -/

@[simp] theorem RegFile.read_write_same (x : RegFile) (r : Reg) (v : Word) : (x.write r v).read r = v := by
  cases r <;> rfl

@[simp] theorem RegFile.read_write_ne (x : RegFile) {r r' : Reg} (v : Word) (h : r' ≠ r) :
    (x.write r v).read r' = x.read r' := by
  cases r <;> cases r' <;> first | rfl | exact absurd rfl h

theorem RegFile.read_write (x : RegFile) (r r' : Reg) (v : Word) :
    (x.write r v).read r' = if r' = r then v else x.read r' := by
  by_cases h : r' = r
  · simp [h]
  · simp [h]

theorem RegFile.ext_read {x y : RegFile} (h : ∀ r, x.read r = y.read r) : x = y := by
  cases x; cases y
  simp only [RegFile.mk.injEq]
  exact ⟨h .pc, h .a, h .b, h .c, h .d, h .e, h .f, h .g⟩

@[simp] theorem RegFile.write_write (x : RegFile) (r : Reg) (v w : Word) : (x.write r v).write r w = x.write r w := by
  cases r <;> rfl

/-! ## `writeReg` -/

theorem State.readReg_writeReg (s : State) (r r' : Reg) (v : Word) :
    (s.writeReg r v).readReg r' = if r' = r then v else s.readReg r' := RegFile.read_write s.x r r' v

@[simp] theorem State.readReg_writeReg_same (s : State) (r : Reg) (v : Word) : (s.writeReg r v).readReg r = v :=
  RegFile.read_write_same s.x r v

@[simp] theorem State.readReg_writeReg_ne (s : State) {r r' : Reg} (v : Word) (h : r' ≠ r) :
    (s.writeReg r v).readReg r' = s.readReg r' := RegFile.read_write_ne s.x v h

@[simp] theorem State.writeReg_x (s : State) (r : Reg) (v : Word) : (s.writeReg r v).x = s.x.write r v := rfl
@[simp] theorem State.writeReg_status (s : State) (r : Reg) (v : Word) : (s.writeReg r v).status = s.status := rfl
@[simp] theorem State.writeReg_prog (s : State) (r : Reg) (v : Word) : (s.writeReg r v).prog = s.prog := rfl
@[simp] theorem State.writeReg_valueStack (s : State) (r : Reg) (v : Word) :
    (s.writeReg r v).valueStack = s.valueStack := rfl
@[simp] theorem State.writeReg_loadOpen (s : State) (r : Reg) (v : Word) : (s.writeReg r v).loadOpen = s.loadOpen := rfl

/-! ## `setStatus` -/

@[simp] theorem State.setStatus_x (s : State) (st : Status) : (s.setStatus st).x = s.x := rfl
@[simp] theorem State.setStatus_status (s : State) (st : Status) : (s.setStatus st).status = st := rfl
@[simp] theorem State.setStatus_prog (s : State) (st : Status) : (s.setStatus st).prog = s.prog := rfl
@[simp] theorem State.setStatus_valueStack (s : State) (st : Status) : (s.setStatus st).valueStack = s.valueStack := rfl
@[simp] theorem State.setStatus_loadOpen (s : State) (st : Status) : (s.setStatus st).loadOpen = s.loadOpen := rfl
@[simp] theorem State.readReg_setStatus (s : State) (st : Status) (r : Reg) : (s.setStatus st).readReg r = s.readReg r := rfl

/-! ## `beginCycle` -/

@[simp] theorem State.beginCycle_x (s : State) : s.beginCycle.x = s.x := rfl
@[simp] theorem State.beginCycle_status (s : State) : s.beginCycle.status = s.status := rfl
@[simp] theorem State.beginCycle_prog (s : State) : s.beginCycle.prog = s.prog := rfl
@[simp] theorem State.beginCycle_valueStack (s : State) : s.beginCycle.valueStack = s.valueStack := rfl
@[simp] theorem State.beginCycle_loadOpen (s : State) : s.beginCycle.loadOpen = false := rfl
@[simp] theorem State.readReg_beginCycle (s : State) (r : Reg) : s.beginCycle.readReg r = s.readReg r := rfl

/-! ## `afterFetch` -/

@[simp] theorem State.afterFetch_status (s : State) : s.afterFetch.status = s.status := rfl
@[simp] theorem State.afterFetch_prog (s : State) : s.afterFetch.prog = s.prog := rfl
@[simp] theorem State.afterFetch_valueStack (s : State) : s.afterFetch.valueStack = s.valueStack := rfl
@[simp] theorem State.afterFetch_loadOpen (s : State) : s.afterFetch.loadOpen = false := rfl

/-- Slot 0 holds the incremented program counter after the fetch (rule R72). -/
@[simp] theorem State.readReg_afterFetch_pc (s : State) :
    s.afterFetch.readReg .pc = wrap32 (signed (s.readReg .pc) + 1) := rfl

@[simp] theorem State.readReg_afterFetch_ne (s : State) {r : Reg} (h : r ≠ .pc) : s.afterFetch.readReg r = s.readReg r := by
  simp [State.afterFetch, h]

end Sys2Proof.Machine
end

