-- ==== Sys2Proof/Laws/Words.lean ====
section
/-! SUPPORT. The readings of 32-bit values against Lean's bit vectors. -/

namespace Sys2Proof.Machine

theorem signed_eq_toInt (v : Word) : signed v = v.toInt := by
  simp only [signed, BitVec.toInt_eq_toNat_cond]
  split <;> split <;> omega

theorem wrap32_eq_ofInt (n : Int) : wrap32 n = BitVec.ofInt 32 n := by
  apply BitVec.eq_of_toNat_eq
  simp only [wrap32, BitVec.toNat_ofNat, BitVec.toNat_ofInt]
  omega

theorem signed_range (v : Word) : -2147483648 ≤ signed v ∧ signed v ≤ 2147483647 := by
  have h := v.isLt
  unfold signed
  split <;> omega

/-- An integer in the signed range survives wrapping (rule R7). -/
theorem signed_wrap32 {n : Int} (lo : -2147483648 ≤ n) (hi : n ≤ 2147483647) : signed (wrap32 n) = n := by
  simp only [signed, wrap32, BitVec.toNat_ofNat]
  split <;> omega

theorem wrap32_signed (v : Word) : wrap32 (signed v) = v := by
  rw [wrap32_eq_ofInt, signed_eq_toInt, BitVec.ofInt_toInt]

theorem signed_eq_zero_iff (v : Word) : signed v = 0 ↔ v = 0#32 := by
  rw [signed_eq_toInt]
  constructor
  · intro h
    exact BitVec.eq_of_toInt_eq (by simpa using h)
  · rintro rfl
    rfl

theorem isZero_iff (v : Word) : isZero v = true ↔ v = 0#32 := by simp [isZero]

theorem divideByZero_iff (v : Word) : divideByZero v = true ↔ v = 0#32 := by simp [divideByZero]

/-- The ALU gives no quotient exactly for a zero divisor (rule R84). -/
theorem aluDiv_eq_none_iff (a b : Word) : aluDiv a b = none ↔ b = 0#32 := by
  simp [aluDiv, divideByZero]

theorem aluDiv_of_ne_zero (a : Word) {b : Word} (h : b ≠ 0#32) :
    aluDiv a b = some (wrap32 (tdiv (signed a) (signed b))) := by
  simp [aluDiv, divideByZero, h]

end Sys2Proof.Machine
end

