-- ==== Sys2Proof/Laws/Ops.lean ====
section
/-! SUPPORT. For each shared operation, what it can do, said once; and that every operation on the Program Store keeps it legal. -/

namespace Sys2Proof.Machine

/-! ## The Program Store -/

theorem Memory.wf_iff (m : Memory) : m.wf = true ↔ m.plen ≤ 2147483647 := by
  unfold Memory.wf
  rw [decide_eq_true_eq]
  rfl

/-- `ProgRead` answers a word exactly inside `[0, PLEN)` (rule R31). -/
theorem Memory.progRead_eq_some_iff (m : Memory) (i : Int) (w : Word) :
    m.progRead i = some w ↔ 0 ≤ i ∧ m[i.toNat]? = some w := by
  unfold Memory.progRead
  split <;> simp <;> omega

theorem Memory.progRead_eq_none_iff (m : Memory) (i : Int) : m.progRead i = none ↔ i < 0 ∨ (m.plen : Int) ≤ i := by
  unfold Memory.progRead Memory.plen
  split
  · simp; omega
  · simp only [List.getElem?_eq_none_iff]; omega

theorem Memory.progRead_bounds {m : Memory} {i : Int} {w : Word} (h : m.progRead i = some w) :
    0 ≤ i ∧ i < (m.plen : Int) := by
  have hn : ¬ (i < 0 ∨ (m.plen : Int) ≤ i) := by
    rw [← Memory.progRead_eq_none_iff, h]; simp
  omega

theorem Memory.putWord_get_same (m : Memory) (i : Nat) (w : Word) : (m.putWord i w)[i]? = some w := by
  induction i generalizing m with
  | zero => cases m <;> rfl
  | succ n ih => cases m <;> simp [Memory.putWord, ih]

/-- Putting a word leaves every other index of the store alone. -/
theorem Memory.putWord_get_other (m : Memory) {i j : Nat} (w : Word) (hj : j < m.length) (h : j ≠ i) :
    (m.putWord i w)[j]? = m[j]? := by
  induction i generalizing m j with
  | zero =>
    cases m with
    | nil => simp at hj
    | cons v rest => cases j <;> simp_all [Memory.putWord]
  | succ n ih =>
    cases m with
    | nil => simp at hj
    | cons v rest =>
      cases j with
      | zero => simp [Memory.putWord]
      | succ j =>
        simp only [Memory.putWord, List.getElem?_cons_succ]
        exact ih rest (by simpa using hj) (by omega)

theorem Memory.putWord_length (m : Memory) (i : Nat) (w : Word) : (m.putWord i w).length = max m.length (i + 1) := by
  induction i generalizing m with
  | zero => cases m <;> simp [Memory.putWord]
  | succ n ih => cases m <;> simp [Memory.putWord, ih]

/-- Putting a word at a legal index keeps the store legal. -/
theorem Memory.putWord_wf {m : Memory} {i : Nat} (w : Word) (hm : m.wf = true) (hi : i < Config.maxProgramLength) :
    (m.putWord i w).wf = true := by
  unfold Memory.wf Memory.plen at *
  rw [decide_eq_true_eq] at *
  rw [Memory.putWord_length]
  exact max_le hm hi

theorem State.reset_prog_wf : State.reset.prog.wf = true := by decide

/-! ## Status and results -/

theorem raise_next_iff (c : FatalCondition) (s t : State) : raise c s = .next t ↔ t = s.setStatus (.faulted c) := by
  simp [raise, eq_comm]

theorem halt_next_iff (s t : State) : halt s = .next t ↔ t = s.setStatus .halted := by
  simp [halt, eq_comm]

theorem writeResult_next_iff (rd : Reg) (v : Word) (s t : State) : writeResult rd v s = .next t ↔ t = s.writeReg rd v := by
  simp [writeResult, eq_comm]

theorem unaryOp_next_iff (f : Word → Word) (ra : Reg) (s t : State) :
    unaryOp f ra s = .next t ↔ t = s.writeReg ra (f (s.readReg ra)) := by
  simp [unaryOp, writeResult_next_iff]

theorem binaryOp_next_iff (f : Word → Word → Word) (ra rb rc : Reg) (s t : State) :
    binaryOp f ra rb rc s = .next t ↔ t = s.writeReg rc (f (s.readReg ra) (s.readReg rb)) := by
  simp [binaryOp, writeResult_next_iff]

theorem execDiv_next_iff (ra rb rc : Reg) (s t : State) :
    execDiv ra rb rc s = .next t ↔
      (s.readReg rb = 0#32 ∧ t = s.setStatus (.faulted .divisionByZero)) ∨
      (s.readReg rb ≠ 0#32 ∧ t = s.writeReg rc (wrap32 (tdiv (signed (s.readReg ra)) (signed (s.readReg rb))))) := by
  unfold execDiv
  by_cases h : s.readReg rb = 0#32
  · rw [(aluDiv_eq_none_iff _ _).2 h]
    simp [raise_next_iff, h]
  · simp [aluDiv_of_ne_zero _ h, writeResult_next_iff, h]

theorem execJumpIfZero_next_iff (ra : Reg) (target : Word) (s t : State) :
    execJumpIfZero ra target s = .next t ↔
      (s.readReg ra = 0#32 ∧ t = s.writeReg .pc target) ∨ (s.readReg ra ≠ 0#32 ∧ t = s) := by
  unfold execJumpIfZero
  by_cases h : s.readReg ra = 0#32
  · rw [if_pos ((isZero_iff _).2 h)]
    simp [writeResult_next_iff, h]
  · rw [if_neg (fun hz => h ((isZero_iff _).1 hz))]
    simp [h, eq_comm (a := s)]

/-- Everything a handler can do (rule R74): end the run, raise, write one register, or nothing. -/
theorem exec_next_cases {i : Instr} {s t : State} (h : exec i s = .next t) :
    (i = .halt ∧ t = s.setStatus .halted) ∨
    (i = .store ∧ t = s.setStatus (.faulted .undefinedOpcode)) ∨
    (∃ ra rb rc, i = .div ra rb rc ∧ s.readReg rb = 0#32 ∧ t = s.setStatus (.faulted .divisionByZero)) ∨
    (∃ rd v, t = s.writeReg rd v) ∨ t = s := by
  cases i with
  | halt => exact .inl ⟨rfl, (halt_next_iff s t).1 h⟩
  | load ra v => exact .inr (.inr (.inr (.inl ⟨_, _, (writeResult_next_iff ra v s t).1 h⟩)))
  | store => exact .inr (.inl ⟨rfl, (raise_next_iff _ s t).1 h⟩)
  | inc ra => exact .inr (.inr (.inr (.inl ⟨_, _, (unaryOp_next_iff _ ra s t).1 h⟩)))
  | dec ra => exact .inr (.inr (.inr (.inl ⟨_, _, (unaryOp_next_iff _ ra s t).1 h⟩)))
  | add ra rb rc => exact .inr (.inr (.inr (.inl ⟨_, _, (binaryOp_next_iff _ ra rb rc s t).1 h⟩)))
  | sub ra rb rc => exact .inr (.inr (.inr (.inl ⟨_, _, (binaryOp_next_iff _ ra rb rc s t).1 h⟩)))
  | mul ra rb rc => exact .inr (.inr (.inr (.inl ⟨_, _, (binaryOp_next_iff _ ra rb rc s t).1 h⟩)))
  | div ra rb rc =>
    rcases (execDiv_next_iff ra rb rc s t).1 h with ⟨h0, ht⟩ | ⟨_, ht⟩
    · exact .inr (.inr (.inl ⟨ra, rb, rc, rfl, h0, ht⟩))
    · exact .inr (.inr (.inr (.inl ⟨_, _, ht⟩)))
  | and ra rb rc => exact .inr (.inr (.inr (.inl ⟨_, _, (binaryOp_next_iff _ ra rb rc s t).1 h⟩)))
  | jump target => exact .inr (.inr (.inr (.inl ⟨_, _, (writeResult_next_iff .pc target s t).1 h⟩)))
  | jumpIfZero ra target =>
    rcases (execJumpIfZero_next_iff ra target s t).1 h with ⟨_, ht⟩ | ⟨_, ht⟩
    · exact .inr (.inr (.inr (.inl ⟨_, _, ht⟩)))
    · exact .inr (.inr (.inr (.inr ht)))

end Sys2Proof.Machine
end

