-- ==== Sys2Proof/Laws/PerInstr.lean ====
section
/-! SUPPORT. Per-instruction families: what is said of every instruction as syntax. -/

namespace Sys2Proof.Laws.CanonicalWord

/-- The canonical word carries the instruction's opcode in its top byte and zero in every bit its format does not read
(rules R54, R57). -/
def Statement (i : Instr) : Prop := opField (encode i) = i.opcode ∧ encode i &&& ~~~i.readMask = 0

/-- The word as a number, its three parts side by side. -/
theorem packWord_toNat (op ra : Byte) (p : BitVec 16) :
    (packWord op ra p).toNat = op.toNat * 2 ^ 24 + (ra.toNat * 2 ^ 16 + p.toNat) := by
  have ho := op.isLt
  have hr := ra.isLt
  have hp := p.isLt
  have e1 : op.toNat <<< 24 % 2 ^ 32 = op.toNat <<< 24 := Nat.mod_eq_of_lt (by rw [Nat.shiftLeft_eq]; omega)
  have e2 : ra.toNat <<< 16 % 2 ^ 32 = ra.toNat <<< 16 := Nat.mod_eq_of_lt (by rw [Nat.shiftLeft_eq]; omega)
  simp only [packWord, zext32OfByte, zext32, BitVec.toNat_or, BitVec.toNat_shiftLeft, BitVec.toNat_setWidth]
  rw [Nat.mod_eq_of_lt (show op.toNat < 2 ^ 32 by omega), Nat.mod_eq_of_lt (show ra.toNat < 2 ^ 32 by omega),
    Nat.mod_eq_of_lt (show p.toNat < 2 ^ 32 by omega), e1, e2, Nat.or_assoc,
    ← Nat.shiftLeft_add_eq_or_of_lt (show p.toNat < 2 ^ 16 from hp),
    ← Nat.shiftLeft_add_eq_or_of_lt (by rw [Nat.shiftLeft_eq]; omega), Nat.shiftLeft_eq, Nat.shiftLeft_eq]

theorem packWord_opField (op ra : Byte) (p : BitVec 16) : opField (packWord op ra p) = op := by
  have ho := op.isLt
  have hr := ra.isLt
  have hp := p.isLt
  apply BitVec.eq_of_toNat_eq
  simp only [opField, BitVec.extractLsb'_toNat, packWord_toNat, Nat.shiftRight_eq_div_pow]
  omega

theorem jump_gap_low : ∀ k, k < 16 → (0x00FF0000#32).getLsbD k = false := by decide

theorem jump_gap_high : ∀ k, k < 16 → (packWord 10 0 0 &&& 0x00FF0000#32).getLsbD (16 + k) = false := by decide

/-- A Jump word is zero in bits 23 to 16. -/
theorem jumpWord_mask (p : BitVec 16) : packWord 10 0 p &&& ~~~0xFF00FFFF = 0 := by
  rw [show ~~~(0xFF00FFFF : Word) = 0x00FF0000#32 by decide]
  apply BitVec.eq_of_getLsbD_eq
  intro k hk
  by_cases h : k < 16
  · simp [jump_gap_low k h]
  · have hh := jump_gap_high (k - 16) (by omega)
    rw [show 16 + (k - 16) = k by omega] at hh
    simpa [packWord, zext32, BitVec.getLsbD_of_ge p k (by omega)] using hh

theorem full_mask (w : Word) : w &&& ~~~0xFFFFFFFF = 0 := by simp

theorem halt : Statement .halt := ⟨packWord_opField _ _ _, by decide⟩
theorem load (ra : Reg) (v : Word) : Statement (.load ra v) := ⟨packWord_opField _ _ _, full_mask _⟩
theorem store : Statement .store := ⟨packWord_opField _ _ _, by decide⟩
theorem inc (ra : Reg) : Statement (.inc ra) := ⟨packWord_opField _ _ _, by cases ra <;> decide⟩
theorem dec (ra : Reg) : Statement (.dec ra) := ⟨packWord_opField _ _ _, by cases ra <;> decide⟩
theorem add (ra rb rc : Reg) : Statement (.add ra rb rc) := ⟨packWord_opField _ _ _, full_mask _⟩
theorem sub (ra rb rc : Reg) : Statement (.sub ra rb rc) := ⟨packWord_opField _ _ _, full_mask _⟩
theorem mul (ra rb rc : Reg) : Statement (.mul ra rb rc) := ⟨packWord_opField _ _ _, full_mask _⟩
theorem div (ra rb rc : Reg) : Statement (.div ra rb rc) := ⟨packWord_opField _ _ _, full_mask _⟩
theorem and (ra rb rc : Reg) : Statement (.and ra rb rc) := ⟨packWord_opField _ _ _, full_mask _⟩
theorem jump (t : Word) : Statement (.jump t) := ⟨packWord_opField _ _ _, jumpWord_mask _⟩
theorem jumpIfZero (ra : Reg) (t : Word) : Statement (.jumpIfZero ra t) := ⟨packWord_opField _ _ _, full_mask _⟩

end Sys2Proof.Laws.CanonicalWord
end

