-- ==== Sys2Proof/Laws/Step.lean ====
section
/-! SUPPORT. What the fetch, a cycle, a step and a host operation can do, said once each. -/

namespace Sys2Proof.Machine

/-! ## Fetch and cycle -/

theorem State.fetchWord_eq_none_iff (s : State) :
    s.fetchWord = none ↔ signed (s.readReg .pc) < 0 ∨ (s.prog.plen : Int) ≤ signed (s.readReg .pc) :=
  Memory.progRead_eq_none_iff _ _

/-- The fetch increment of a successful fetch never overflows (rule R16). -/
theorem State.signed_pc_afterFetch {s : State} {w : Word} (hw : s.fetchWord = some w) (hp : s.prog.wf = true) :
    signed (s.afterFetch.readReg .pc) = signed (s.readReg .pc) + 1 := by
  have hb := Memory.progRead_bounds hw
  have hl := (Memory.wf_iff s.prog).1 hp
  rw [State.readReg_afterFetch_pc]
  exact signed_wrap32 (by omega) (by omega)

theorem cycle_of_none {s : State} (h : s.fetchWord = none) : cycle s = raise .outOfBounds s.beginCycle := by
  simp [cycle, h]

theorem cycle_of_some {s : State} {w : Word} (h : s.fetchWord = some w) : cycle s = decodeExecute w s.afterFetch := by
  simp [cycle, h]

theorem decodeExecute_next_iff (w : Word) (s t : State) :
    decodeExecute w s = .next t ↔
      (∃ i, decode w = .instr i ∧ exec i s = .next t) ∨
      (decode w = .undefinedOpcode ∧ t = s.setStatus (.faulted .undefinedOpcode)) ∨
      (decode w = .illegalRegister ∧ t = s.setStatus (.faulted .illegalRegister)) := by
  unfold decodeExecute
  cases h : decode w <;> simp [raise_next_iff]

/-- Decode and execute of a word is the meaning of the instruction that its row names; for Store the decoder raises what the
meaning raises. -/
theorem decodeExecute_of_readRow {w : Word} {i : Instr} (h : readRow w = .instr i) (s : State) :
    decodeExecute w s = exec i s := by
  unfold decodeExecute
  rcases readRow_cases h with ⟨rfl, hd⟩ | hd
  · rw [hd]; rfl
  · rw [hd]

/-! ## Step -/

theorem step_running {s : State} (hr : s.status = .running) (hp : s.prog.wf = true) : step s = cycle s := by
  simp [step, hr, hp]

theorem step_terminal {s : State} (h : s.terminal = true) : step s = .next s := by
  unfold State.terminal at h
  unfold step
  split at h <;> simp_all

/-- Everything a step can do. -/
theorem step_next_cases {s t : State} (h : step s = .next t) :
    (s.terminal = true ∧ t = s) ∨ (s.status = .running ∧ s.prog.wf = true ∧ cycle s = .next t) := by
  cases hs : s.status with
  | halted => left; simp_all [step, State.terminal]
  | faulted c => left; simp_all [step, State.terminal]
  | running =>
    right
    by_cases hp : s.prog.wf = true
    · exact ⟨rfl, hp, by rwa [step_running hs hp] at h⟩
    · simp [step, hs, hp] at h

/-- Everything a cycle can do. -/
theorem cycle_next_cases {s t : State} (h : cycle s = .next t) :
    (s.fetchWord = none ∧ t = s.beginCycle.setStatus (.faulted .outOfBounds)) ∨
    (∃ w, s.fetchWord = some w ∧ decodeExecute w s.afterFetch = .next t) := by
  cases hw : s.fetchWord with
  | none => left; exact ⟨rfl, (raise_next_iff _ _ _).1 (by rwa [cycle_of_none hw] at h)⟩
  | some w => right; exact ⟨w, rfl, by rwa [cycle_of_some hw] at h⟩

/-! ## Host operations -/

theorem load_next_iff (p : Memory) (s t : State) :
    load p s = .next t ↔ s.loadOpen = true ∧ p.wf = true ∧ t = { s with prog := p, loadOpen := false } := by
  unfold load
  by_cases ho : s.loadOpen = true <;> by_cases hp : p.wf = true <;> simp [ho, hp, eq_comm]

/-- `load` leaves a legal Program Store. -/
theorem load_wf {p : Memory} {s t : State} (h : load p s = .next t) : t.prog.wf = true := by
  obtain ⟨_, hp, rfl⟩ := (load_next_iff p s t).1 h
  exact hp

end Sys2Proof.Machine
end

