-- ==== Sys2Proof/Tests/Slice0.lean ====
section
/-! SUPPORT. The model's own tests. Expected values come from spec/95_test_vectors.md (the section is named at each group), and
after them stands one witness for every statement that has hypotheses. -/

namespace Sys2Proof.Tests

open Sys2Proof Sys2Proof.Machine Sys2Proof.Claims

/-! ## Helpers -/

/-- A register file with PC, A, B, C given and D to G zero. -/
def regs (pc a b c : Word) : RegFile := { pc := pc, a := a, b := b, c := c, d := 0, e := 0, f := 0, g := 0 }

/-- A Running state with the program `prog`, after `load`. -/
def ready (x : RegFile) (prog : Memory) : State :=
  { x := x, status := .running, prog := prog, valueStack := [], loadOpen := false }

/-- A Running state with the word `w` alone in the Program Store. -/
def one (x : RegFile) (w : Word) : State := ready x [w]

/-- The state of a next outcome. -/
def nextOf (o : Host.Outcome State Fault Refusal) : Option State :=
  match o with
  | .next t => some t
  | .fault _ => none
  | .refused _ => none

/-- The refusal of an outcome. -/
def refusalOf (o : Host.Outcome State Fault Refusal) : Option Refusal :=
  match o with
  | .next _ => none
  | .fault _ => none
  | .refused r => some r

/-- Registers and status after one step. -/
def view (s : State) : Option (RegFile × Status) := (nextOf (step s)).map (fun t => (t.x, t.status))

/-! ## WellFormed: ill-formed terms that the check refuses (rules R56, R62) -/

theorem test_wf_load_above : Instr.wellFormed (.load .a 0x00008000#32) = false := by decide
theorem test_wf_load_below : Instr.wellFormed (.load .a 0xFFFF7FFF#32) = false := by decide
theorem test_wf_jump_above : Instr.wellFormed (.jump 0x00010000#32) = false := by decide
theorem test_wf_jump_negative : Instr.wellFormed (.jump 0xFFFFFFFF#32) = false := by decide
theorem test_wf_jumpIfZero_above : Instr.wellFormed (.jumpIfZero .a 0x00010000#32) = false := by decide

/-! ## Decode: words written out from rules R51 to R57 (95_test_vectors.md section 2.1) -/

theorem test_decode_halt : decode 0b00000000000000000000000000000000#32 = .instr .halt ∧
    decode 0b00000000111111111111111111111111#32 = .instr .halt := by decide
theorem test_decode_load : decode 0b00000001000001000000000000001010#32 = .instr (.load .d 10#32) ∧
    decode 0b00000001000000011000000000000000#32 = .instr (.load .a 0xFFFF8000#32) := by decide
theorem test_decode_store : decode 0b00000010000000000000000000000000#32 = .undefinedOpcode ∧
    decode 0b00000010111111111111111111111111#32 = .undefinedOpcode := by decide
theorem test_readRow_store : readRow 0b00000010000000000000000000000000#32 = .instr .store ∧
    readRow 0b00000010111111111111111111111111#32 = .instr .store := by decide
theorem test_decode_inc : decode 0b00000011000000010000000000000000#32 = .instr (.inc .a) ∧
    decode 0b00000011000000010000101010111100#32 = .instr (.inc .a) := by decide
theorem test_decode_dec : decode 0b00000100000001110000000000000000#32 = .instr (.dec .g) := by decide
theorem test_decode_add : decode 0b00000101000000010000001000000011#32 = .instr (.add .a .b .c) := by decide
theorem test_decode_sub : decode 0b00000110000000010000010000000011#32 = .instr (.sub .a .d .c) := by decide
theorem test_decode_mul : decode 0b00000111000000100000000100000010#32 = .instr (.mul .b .a .b) := by decide
theorem test_decode_div : decode 0b00001000000000010000001000000011#32 = .instr (.div .a .b .c) := by decide
theorem test_decode_and : decode 0b00001001000000010000001000000011#32 = .instr (.and .a .b .c) := by decide
theorem test_decode_jump : decode 0b00001010111111110000000000000001#32 = .instr (.jump 1#32) ∧
    decode 0b00001010000000001111111111111111#32 = .instr (.jump 65535#32) := by decide
theorem test_decode_jumpIfZero : decode 0b00001011000000110000000000000010#32 = .instr (.jumpIfZero .c 2#32) := by decide
theorem test_decode_registers :
    [0x03000000#32, 0x03010000#32, 0x03020000#32, 0x03030000#32, 0x03040000#32, 0x03050000#32, 0x03060000#32, 0x03070000#32].map
      decode = [Reg.pc, .a, .b, .c, .d, .e, .f, .g].map (fun r => .instr (.inc r)) := by decide
theorem test_decode_illegal :
    [0x01080000#32, 0x05080203#32, 0x05010903#32, 0x050102FF#32, 0x0B090000#32].map decode =
      List.replicate 5 .illegalRegister := by decide
theorem test_decode_undefined : [0x0C000000#32, 0xFF010203#32].map decode = [.undefinedOpcode, .undefinedOpcode] := by decide
theorem test_decodeTableWord :
    decodeTableWord 32 0x06010403 = some (.sub .a .d .c) ∧ decodeTableWord 32 0x0C000000 = none ∧
    decodeTableWord 32 0x02000000 = some .store ∧
    decodeTableWord 8 0x0B030005 = some .halt := by decide

/-! ## Encode and the assembly notation (rule R64, section 1 S1) -/

/-- The reference program. -/
def reference : List Instr :=
  [.load .a 0#32, .load .b 0#32, .inc .a, .load .d 10#32, .sub .a .d .c, .jumpIfZero .c 2#32, .halt]

/-- Its words (rule R64). -/
def referenceWords : Memory :=
  [0x01010000#32, 0x01020000#32, 0x03010000#32, 0x0104000A#32, 0x06010403#32, 0x0B030002#32, 0x00000000#32]

theorem test_encode_reference : reference.map encode = referenceWords := by decide
theorem test_decode_reference : referenceWords.map decode = reference.map .instr := by decide

/-- `[Load A,0; Load B,0; Inc A; Load D,10; Sub A,D,C; JumpIfZero C,2; Halt]` without the brackets, cut in two. -/
def referenceText1 : List Char :=
  ['L', 'o', 'a', 'd', ' ', 'A', ',', '0', ';', ' ', 'L', 'o', 'a', 'd', ' ', 'B', ',', '0', ';', ' ', 'I', 'n', 'c', ' ', 'A',
   ';', ' ', 'L', 'o', 'a', 'd', ' ', 'D', ',', '1', '0']
def referenceText2 : List Char :=
  ['S', 'u', 'b', ' ', 'A', ',', 'D', ',', 'C', '\n', 'J', 'u', 'm', 'p', 'I', 'f', 'Z', 'e', 'r', 'o', ' ', 'C', ',', '2', ';',
   ' ', 'H', 'a', 'l', 't']

theorem test_assemble_reference1 : assemble referenceText1 = some (referenceWords.take 4) := by decide
theorem test_assemble_reference2 : assemble referenceText2 = some (referenceWords.drop 4) := by decide
theorem test_parse_immediate_range :
    parseInstr ['L', 'o', 'a', 'd', ' ', 'A', ',', '-', '3', '2', '7', '6', '8'] = some (.load .a 0xFFFF8000#32) ∧
    parseInstr ['L', 'o', 'a', 'd', ' ', 'A', ',', '3', '2', '7', '6', '8'] = none := by decide
theorem test_parse_target_range :
    parseInstr ['J', 'u', 'm', 'p', ' ', '6', '5', '5', '3', '5'] = some (.jump 65535#32) ∧
    parseInstr ['J', 'u', 'm', 'p', ' ', '6', '5', '5', '3', '6'] = none := by decide
theorem test_image : programImage [0x0104000A#32] = [0x0A#8, 0x00#8, 0x04#8, 0x01#8] := by decide

/-! ## Load and Store (sections 2.2, 2.3) -/

theorem test_load_sign_extends : view (one (regs 0 0 0 0) 0x01018000) = some (regs 1 0xFFFF8000 0 0, .running) := by decide
theorem test_load_pc_redirects : view (one (regs 0 0 0 0) 0x0100FFFF) = some (regs 0xFFFFFFFF 0 0 0, .running) := by decide
theorem test_store_faults :
    view (one (regs 0 1 2 3) 0x02FFFFFF) = some (regs 1 1 2 3, .faulted .undefinedOpcode) := by decide

/-! ## Inc and Dec (section 2.4) -/

theorem test_inc_wraps : view (one (regs 0 0x7FFFFFFF 0 0) 0x03010ABC) = some (regs 1 0x80000000 0 0, .running) := by decide
theorem test_inc_pc_skips : view (one (regs 0 0 0 0) 0x03000000) = some (regs 2 0 0 0, .running) := by decide
theorem test_dec_wraps : view (one (regs 0 0x80000000 0 0) 0x04010000) = some (regs 1 0x7FFFFFFF 0 0, .running) := by decide
theorem test_dec_pc_repeats : view (one (regs 0 0 0 0) 0x04000000) = some (regs 0 0 0 0, .running) := by decide

/-! ## Add, Sub, Mul, Div, And (section 2.5) -/

theorem test_add_wraps : view (one (regs 0 0x7FFFFFFF 1 0xAAAAAAAA) 0x05010203) =
    some (regs 1 0x7FFFFFFF 1 0x80000000, .running) := by decide
theorem test_add_pc_relative : view (ready (regs 1 0 2 0) [0, 0x05000200]) = some (regs 4 0 2 0, .running) := by decide
theorem test_sub_order : view (one (regs 0 1 0xA 0xAAAAAAAA) 0x06010203) =
    some (regs 1 1 0xA 0xFFFFFFF7, .running) := by decide
theorem test_sub_same_source : view (one (regs 0 0x15 0 9) 0x06010103) = some (regs 1 0x15 0 0, .running) := by decide
theorem test_mul_low_half : view (one (regs 0 0xFFFF8000 0x8000 0xAAAAAAAA) 0x07010203) =
    some (regs 1 0xFFFF8000 0x8000 0xC0000000, .running) := by decide
theorem test_mul_high_lost : view (one (regs 0 0x10000 0x10000 0xAAAAAAAA) 0x07010203) =
    some (regs 1 0x10000 0x10000 0, .running) := by decide
theorem test_div_truncates : view (one (regs 0 0xFFFFFFF9 2 0xAAAAAAAA) 0x08010203) =
    some (regs 1 0xFFFFFFF9 2 0xFFFFFFFD, .running) := by decide
theorem test_div_by_zero : view (one (regs 0 7 0 0xAAAAAAAA) 0x08010203) =
    some (regs 1 7 0 0xAAAAAAAA, .faulted .divisionByZero) := by decide
theorem test_and_logical : view (one (regs 0 1 2 0xAAAAAAAA) 0x09010203) = some (regs 1 1 2 1, .running) := by decide
theorem test_and_zero : view (one (regs 0 0 3 0xAAAAAAAA) 0x09010203) = some (regs 1 0 3 0, .running) := by decide

/-! ## Halt, Jump, JumpIfZero (section 2.6) -/

theorem test_halt_last_index : view (ready (regs 2 1 0 0) [1, 1, 0]) = some (regs 3 1 0 0, .halted) := by decide
theorem test_jump_absolute : view (ready (regs 1 0 0 0) [0, 0x0AFF0007]) = some (regs 7 0 0 0, .running) := by decide
theorem test_jump_zero_extends : view (one (regs 0 0 0 0) 0x0A00FFFF) = some (regs 0x0000FFFF 0 0 0, .running) := by decide
theorem test_jumpIfZero_taken : view (one (regs 0 1 2 0) 0x0B030006) = some (regs 6 1 2 0, .running) := by decide
theorem test_jumpIfZero_pc_never : view (one (regs 0 0 0 0) 0x0B000000) = some (regs 1 0 0 0, .running) := by decide

/-! ## Faults and the host (sections 2.5, 2.7, 2.8, rule R121) -/

theorem test_illegal_before_zero_divisor : view (one (regs 0 1 0 3) 0x08090200) =
    some (regs 1 1 0 3, .faulted .illegalRegister) := by decide
theorem test_fetch_at_length : view (ready (regs 1 1 0 0) [0]) = some (regs 1 1 0 0, .faulted .outOfBounds) := by decide
theorem test_fetch_negative : view (ready (regs 0xFFFFFFFF 0 0 0) [0]) =
    some (regs 0xFFFFFFFF 0 0 0, .faulted .outOfBounds) := by decide
theorem test_empty_program : view State.reset = some (regs 0 0 0 0, .faulted .outOfBounds) := by decide
theorem test_terminal_keeps : (nextOf (step { one (regs 0 0 0 0) 0x03010000 with status := .halted })).map State.x =
    some (regs 0 0 0 0) := by decide
theorem test_load_refused_after_load : refusalOf (load [0] (ready (regs 0 0 0 0) [0])) = some .loadMisplaced := by decide
theorem test_withFetchWord : view (State.reset.withFetchWord 32 0x03010000) = some (regs 1 1 0 0, .running) := by decide

/-! ## Witnesses: for each statement with hypotheses, states and operands that meet them, clause by clause at the ends of the
ranges. The name is the statement's. -/

/-- A Running state at index 0 whose only word has the given bytes; A holds 12, B holds 4, C to G hold 0. -/
def at0 (op ra hi lo : Byte) : State := one (regs 0 12 4 0) (rawWord op ra hi lo)

theorem test_witness_DivCompletes : (at0 8 1 2 3).readReg .b ≠ 0#32 := by decide
theorem test_witness_DivByZeroTakesFault : (at0 8 1 2 3).readReg .c = 0#32 := by decide
theorem test_witness_JumpIfZeroCompletes : (at0 11 3 0 6).readReg .c = 0#32 ∧ (at0 11 1 0 6).readReg .a ≠ 0#32 := by decide
theorem test_witness_HaltWordEndsTheRun :
    Fetches (at0 0 0 0 0) (rawWord 0 0 0 0) ∧ Fetches (at0 0 255 255 255) (rawWord 0 255 255 255) ∧
    nextOf (step (at0 0 0 0 0)) = some ((at0 0 0 0 0).afterFetch.setStatus .halted) := by decide
theorem test_witness_LoadWordLoadsImmediate :
    (Fetches (at0 1 7 128 0) (rawWord 1 7 128 0) ∧ Reg.index .g = 7#8) ∧
    (Fetches (at0 1 8 0 0) (rawWord 1 8 0 0) ∧ 7 < (8#8).toNat) ∧
    (Fetches (at0 1 0 255 255) (rawWord 1 0 255 255) ∧ (nextOf (step (at0 1 0 255 255))).isSome = true ∧
      (255#8 ++ 255#8 : BitVec 16).toInt < 0) ∧
    (Fetches (at0 1 0 0 1) (rawWord 1 0 0 1) ∧ (nextOf (step (at0 1 0 0 1))).isSome = true ∧
      ((at0 1 0 0 1).prog.length : Int) ≤ (0#8 ++ 1#8 : BitVec 16).toInt) := by decide
theorem test_witness_StoreWordFaults :
    Fetches (at0 2 0 0 0) (rawWord 2 0 0 0) ∧ Fetches (at0 2 255 255 255) (rawWord 2 255 255 255) := by decide
theorem test_witness_IncWordAddsOne :
    (Fetches (at0 3 7 0 0) (rawWord 3 7 0 0) ∧ Reg.index .g = 7#8) ∧ (Fetches (at0 3 0 0 0) (rawWord 3 0 0 0) ∧ Reg.index .pc = 0#8) ∧
    (Fetches (at0 3 8 0 0) (rawWord 3 8 0 0) ∧ 7 < (8#8).toNat) := by decide
theorem test_witness_DecWordSubtractsOne :
    (Fetches (at0 4 7 0 0) (rawWord 4 7 0 0) ∧ Reg.index .g = 7#8) ∧ (Fetches (at0 4 8 0 0) (rawWord 4 8 0 0) ∧ 7 < (8#8).toNat) ∧
    Fetches (at0 4 0 0 0) (rawWord 4 0 0 0) := by decide

/-- What the witnesses of the three-register words share: every field legal at its ends, and each field illegal alone. -/
def BinaryWitness (op : Byte) : Prop :=
  (Fetches (at0 op 7 7 7) (rawWord op 7 7 7) ∧ Reg.index .g = 7#8) ∧ (Fetches (at0 op 0 0 0) (rawWord op 0 0 0) ∧ Reg.index .pc = 0#8) ∧
  (7 < (8#8).toNat ∧ Fetches (at0 op 8 7 7) (rawWord op 8 7 7) ∧ Fetches (at0 op 7 8 7) (rawWord op 7 8 7) ∧
    Fetches (at0 op 7 7 8) (rawWord op 7 7 8))

theorem test_witness_AddWordAdds : BinaryWitness 5 := by unfold BinaryWitness; decide
theorem test_witness_SubWordSubtracts : BinaryWitness 6 := by unfold BinaryWitness; decide
theorem test_witness_MulWordMultiplies : BinaryWitness 7 := by unfold BinaryWitness; decide
theorem test_witness_AndWordIsLogical : BinaryWitness 9 := by unfold BinaryWitness; decide
theorem test_witness_DivWordDivides : BinaryWitness 8 := by unfold BinaryWitness; decide
theorem test_witness_DivWordDivides_divisors :
    fetched (at0 8 7 7 7) .g = 0#32 ∧ fetched (at0 8 1 2 3) .b ≠ 0#32 ∧ Fetches (at0 8 1 2 3) (rawWord 8 1 2 3) ∧
    (nextOf (step (at0 8 1 0 3))).isSome = true := by decide
theorem test_witness_JumpWordReplacesPc :
    Fetches (at0 10 255 255 255) (rawWord 10 255 255 255) ∧ (nextOf (step (at0 10 255 255 255))).isSome = true ∧
    Fetches (at0 10 0 0 0) (rawWord 10 0 0 0) ∧
    (((0#8 ++ 0#8 : BitVec 16).toNat : Nat) : Int) = ((at0 10 0 0 0).readReg .pc).toInt := by decide
theorem test_witness_JumpWordReplacesPc_outside :
    Fetches (at0 10 0 0 1) (rawWord 10 0 0 1) ∧ (nextOf (step (at0 10 0 0 1))).isSome = true ∧
    (at0 10 0 0 1).prog.length ≤ (0#8 ++ 1#8 : BitVec 16).toNat := by decide
theorem test_witness_JumpIfZeroWordTestsRegister_outside :
    Fetches (at0 11 3 0 1) (rawWord 11 3 0 1) ∧ Reg.index .c = 3#8 ∧ fetched (at0 11 3 0 1) .c = 0#32 ∧
    (nextOf (step (at0 11 3 0 1))).isSome = true ∧ (at0 11 3 0 1).prog.length ≤ (0#8 ++ 1#8 : BitVec 16).toNat := by decide
theorem test_witness_JumpIfZeroWordTestsRegister :
    (Fetches (at0 11 7 0 6) (rawWord 11 7 0 6) ∧ Reg.index .g = 7#8 ∧ fetched (at0 11 7 0 6) .g = 0#32 ∧
      (nextOf (step (at0 11 7 0 6))).isSome = true) ∧
    (Fetches (at0 11 1 0 6) (rawWord 11 1 0 6) ∧ Reg.index .a = 1#8 ∧ fetched (at0 11 1 0 6) .a ≠ 0#32) ∧
    (Fetches (at0 11 8 0 6) (rawWord 11 8 0 6) ∧ 7 < (8#8).toNat) ∧ Fetches (at0 11 0 0 0) (rawWord 11 0 0 0) := by decide
theorem test_witness_FetchOutsideStoreFaults :
    [0#32, 1#32, 2#32, 0x80000000#32, 0xFFFFFFFF#32].map
      (fun pc => (decide ((ready (regs pc 0 0 0) [0, 0]).prog.wf = true), (ready (regs pc 0 0 0) [0, 0]).fetchWord)) =
    [(true, some 0), (true, some 0), (true, none), (true, none), (true, none)] := by decide
theorem test_witness_FetchOutsideStoreFaults_halt :
    ((ready (regs 1 0 0 0) [1, 0]).readReg .pc).toInt + 1 = ((ready (regs 1 0 0 0) [1, 0]).prog.length : Int) ∧
    decode 0#32 = .instr .halt := by decide
theorem test_witness_UndefinedOpcodeWordFaults :
    Fetches (at0 2 8 8 8) (rawWord 2 8 8 8) ∧ Fetches (at0 12 8 8 8) (rawWord 12 8 8 8) ∧ 12 ≤ (12#8).toNat ∧
    Fetches (at0 255 0 0 0) (rawWord 255 0 0 0) ∧ 12 ≤ (255#8).toNat := by decide
theorem test_witness_IllegalRegisterFieldFaults :
    (Fetches (at0 1 8 0 0) (rawWord 1 8 0 0) ∧ Fetches (at0 3 255 0 0) (rawWord 3 255 0 0) ∧
      Fetches (at0 4 8 0 0) (rawWord 4 8 0 0) ∧ Fetches (at0 11 8 0 0) (rawWord 11 8 0 0)) ∧
    (Fetches (at0 5 8 0 0) (rawWord 5 8 0 0) ∧ Fetches (at0 5 7 8 7) (rawWord 5 7 8 7) ∧
      Fetches (at0 9 7 7 255) (rawWord 9 7 7 255)) ∧
    (Fetches (at0 0 8 8 8) (rawWord 0 8 8 8) ∧ (nextOf (step (at0 0 8 8 8))).isSome = true ∧
      Fetches (at0 2 8 8 8) (rawWord 2 8 8 8) ∧ (nextOf (step (at0 2 8 8 8))).isSome = true ∧
      Fetches (at0 10 8 8 8) (rawWord 10 8 8 8) ∧ (nextOf (step (at0 10 8 8 8))).isSome = true) := by decide
theorem test_witness_IllegalRegisterFieldFaults_legal :
    [at0 1 7 255 255, at0 3 7 255 255, at0 4 7 255 255, at0 11 7 255 255, at0 5 7 7 7, at0 9 7 7 7].map
      (fun s => (s.status, s.prog.wf, s.fetchWord, (nextOf (step s)).isSome)) =
    [rawWord 1 7 255 255, rawWord 3 7 255 255, rawWord 4 7 255 255, rawWord 11 7 255 255, rawWord 5 7 7 7,
      rawWord 9 7 7 7].map (fun w => (.running, true, some w, true)) := by decide

/-- States whose next step ends in each of the six statuses. -/
def sixEnds : List State := [at0 3 1 0 0, at0 0 0 0 0, ready (regs 1 0 0 0) [0], at0 8 1 3 1, at0 12 0 0 0, at0 3 8 0 0]

theorem test_witness_StatusAfterCycleNamesItsCause :
    sixEnds.map State.status = List.replicate 6 .running ∧
    sixEnds.map (fun s => (nextOf (step s)).map State.status) =
      [some .running, some .halted, some (.faulted .outOfBounds), some (.faulted .divisionByZero),
        some (.faulted .undefinedOpcode), some (.faulted .illegalRegister)] := by decide
theorem test_witness_FaultsArePrecise :
    (sixEnds.drop 2).map State.status = List.replicate 4 .running ∧
    (sixEnds.drop 2).map (fun s => (nextOf (step s)).map State.status) =
      [some (.faulted .outOfBounds), some (.faulted .divisionByZero), some (.faulted .undefinedOpcode),
        some (.faulted .illegalRegister)] := by decide
theorem test_witness_StepRunsDecodedInstruction :
    (Fetches (at0 5 1 2 3) (rawWord 5 1 2 3) ∧ decode (rawWord 5 1 2 3) = .instr (.add .a .b .c)) ∧
    (Fetches (at0 2 0 0 0) (rawWord 2 0 0 0) ∧ readRow (rawWord 2 0 0 0) = .instr .store) := by decide
theorem test_witness_StepIsReferenceCycle :
    sixEnds.map State.status = List.replicate 6 .running ∧ sixEnds.map (fun s => s.prog.wf) = List.replicate 6 true := by decide
theorem test_witness_PcAfterCycle :
    (Fetches (at0 0 0 0 0) (rawWord 0 0 0 0) ∧ (nextOf (step (at0 0 0 0 0))).map State.status = some .halted) ∧
    (Fetches (at0 3 1 0 0) (rawWord 3 1 0 0) ∧ decode (rawWord 3 1 0 0) = .instr (.inc .a) ∧ Reg.pc ∉ dests (.inc .a)) ∧
    (Fetches (at0 10 0 255 255) (rawWord 10 0 255 255) ∧ decode (rawWord 10 0 255 255) = .instr (.jump 65535#32)) ∧
    (Fetches (at0 11 3 0 6) (rawWord 11 3 0 6) ∧ decode (rawWord 11 3 0 6) = .instr (.jumpIfZero .c 6#32) ∧
      fetched (at0 11 3 0 6) .c = 0#32) ∧
    (Fetches (at0 11 1 0 6) (rawWord 11 1 0 6) ∧ decode (rawWord 11 1 0 6) = .instr (.jumpIfZero .a 6#32) ∧
      fetched (at0 11 1 0 6) .a ≠ 0#32) := by decide
theorem test_witness_PcAfterCycle_destinations :
    [at0 1 0 255 255, at0 3 0 0 0, at0 4 0 0 0, at0 5 0 2 0, at0 6 1 2 0, at0 7 1 2 0, at0 8 1 2 0, at0 9 1 2 0].map
      (fun s => s.fetchWord.map (fun w => match decode w with
        | .instr i => (valueForPc (fetched s) i, (nextOf (step s)).map (fun t => t.x.pc))
        | .undefinedOpcode => (none, none)
        | .illegalRegister => (none, none))) =
    [0xFFFFFFFF#32, 2#32, 0#32, 5#32, 8#32, 48#32, 3#32, 1#32].map (fun v => some (some v, some v)) := by decide
theorem test_witness_RunningAlwaysSteps : State.reset.status = .running ∧ State.reset.prog.wf = true := by decide
theorem test_witness_ExecWritesOnlyItsDestination :
    [exec .halt (at0 0 0 0 0), exec .store (at0 0 0 0 0), exec (.div .a .c .b) (at0 0 0 0 0), exec (.inc .a) (at0 0 0 0 0)].map
      (fun o => (nextOf o).map State.status) =
    [some .halted, some (.faulted .undefinedOpcode), some (.faulted .divisionByZero), some .running] := by decide
theorem test_witness_UnreadRegistersDoNotMatter :
    (nextOf (exec (.add .a .b .c) (at0 0 0 0 0))).isSome = true ∧ Reg.c ∉ sources (.add .a .b .c) ∧
    Reg.g ∉ sources (.add .a .b .c) := by decide
theorem test_witness_StepKeepsProgramAndStack : sixEnds.all (fun s => (nextOf (step s)).isSome) = true := by decide
theorem test_witness_StepKeepsInvariant : State.reset.Inv ∧ (nextOf (step State.reset)).isSome = true :=
  ⟨⟨by decide, rfl, trivial, fun _ => rfl⟩, by decide⟩
theorem test_witness_ReachableStatesAreSound : Reachable State.reset ∧ Reachable (ready (regs 0 0 0 0) referenceWords) :=
  ⟨.created State.reset, .operated (.load referenceWords) _ _ (.created State.reset) rfl⟩

/-- The empty program's end. -/
def emptyEnd : State := { State.reset with status := .faulted .outOfBounds, loadOpen := false }

theorem test_witness_TerminalLeftOnlyByCreate :
    emptyEnd.Inv ∧ emptyEnd.terminal = true ∧ HostOp.step.apply emptyEnd = .next emptyEnd ∧
    HostOp.create.apply emptyEnd = .next State.reset :=
  ⟨⟨by decide, rfl, (by decide : emptyEnd.fetchWord = none), fun h => by cases h⟩, by decide, rfl, rfl⟩
theorem test_witness_DecodeEncodeRoundTrip :
    Instr.wellFormed (.load .pc 0xFFFF8000#32) = true ∧ Instr.wellFormed (.load .g 0x00007FFF#32) = true ∧
    Instr.wellFormed (.jump 0#32) = true ∧ Instr.wellFormed (.jump 65535#32) = true ∧
    Instr.wellFormed (.jumpIfZero .g 65535#32) = true ∧ Instr.wellFormed .store = true := by decide
theorem test_witness_DecodedIsCanonicalUpToUnreadBits :
    decode 0x0AFF0001#32 = .instr (.jump 1#32) ∧ readRow 0x02FFFFFF#32 = .instr .store := by decide
theorem test_witness_UnreadBitsAreIgnored :
    readRow 0x0AFF0001#32 = .instr (.jump 1#32) ∧
    0x0AFF0001#32 &&& (Instr.jump 1#32).readMask = 0x0A000001#32 &&& (Instr.jump 1#32).readMask := by decide
theorem test_witness_DecoderRejectsByName :
    decode (rawWord 12 0 0 0) = .undefinedOpcode ∧ decode (rawWord 2 8 8 8) = .undefinedOpcode ∧
    readRow (rawWord 2 8 8 8) = .instr .store ∧ decode (rawWord 11 8 0 0) = .illegalRegister ∧
    decode (rawWord 5 7 7 8) = .illegalRegister := by decide
theorem test_witness_AluAndIsLogical : (1#32 ≠ 0#32 ∧ 0x80000000#32 ≠ 0#32) ∧ (0#32 = 0#32 ∨ 3#32 = 0#32) := by decide
theorem test_witness_AluDivTruncatesTowardZero :
    (2#32 ≠ 0#32 ∧ ¬ (0xFFFFFFF9#32 = 0x80000000#32 ∧ 2#32 = 0xFFFFFFFF#32)) ∧
    ((7#32).toInt < 0 ↔ (2#32).toInt < 0) ∧ ¬ ((0xFFFFFFF9#32).toInt < 0 ↔ (2#32).toInt < 0) := by decide
theorem test_witness_LoadInstallsOnceBeforeFirstCycle :
    (State.reset.loadOpen = true ∧ (List.replicate 2147483647 (0#32 : Word)).length ≤ 2147483647) ∧
    2147483647 < (List.replicate 2147483648 (0#32 : Word)).length ∧
    (State.reset.status = .running ∧ (nextOf (step State.reset)).isSome = true) :=
  ⟨⟨rfl, by rw [List.length_replicate]⟩, by rw [List.length_replicate]; decide, rfl, by decide⟩
theorem test_witness_RunReturnsOrHangs :
    (one (regs 0 0 0 0) 0).prog.wf = true ∧ RunReturns (one (regs 0 0 0 0) 0) { one (regs 1 0 0 0) 0 with status := .halted } :=
  ⟨by decide, 2, rfl, by decide⟩
theorem test_witness_StatusCodesAreDistinct :
    Status.code (.faulted .illegalRegister) = Status.code (.faulted .illegalRegister) := by decide
theorem test_witness_AssemblyTextRoundTrip :
    Instr.wellFormed (.load .a 0xFFFF8000#32) = true ∧ Instr.wellFormed (.jumpIfZero .pc 65535#32) = true ∧
    Instr.wellFormed .halt = true := by decide

end Sys2Proof.Tests
end

