-- ==== Sys2Proof/Proofs/Reset.lean ====
section
/-! PROOF. The machine as reset leaves it, one reading per piece of state (rule R23). -/

namespace Sys2Proof.Machine

/-- Reset comes from any state, terminal ones included (rules R120, R150). -/
@[simp] theorem create_eq_reset (s : State) : create s = State.reset := rfl

/-- All eight slots are zeroed; at slot 0 this is the entry point, index 0. -/
@[simp] theorem State.readReg_reset (r : Reg) : State.reset.readReg r = 0#32 := by
  cases r with
  | pc | a | b | c | d | e | f | g => rfl

@[simp] theorem State.reset_status : State.reset.status = .running := rfl
@[simp] theorem State.reset_prog : State.reset.prog = [] := rfl
@[simp] theorem State.reset_valueStack : State.reset.valueStack = [] := rfl

@[simp] theorem Memory.plen_nil : Memory.plen [] = 0 := rfl

/-- `PLEN` is no state of its own: it is 0 because the Program Store is empty (rules R20, R31). -/
theorem State.reset_plen : State.reset.prog.plen = 0 := by
  rw [State.reset_prog, Memory.plen_nil]

/-- Settles O53: each clause is the reading of one row of the table of rule R23. -/
theorem resetValues : Obligations.ResetValues := by
  intro s
  exact ⟨create_eq_reset s, State.readReg_reset, State.reset_status, State.reset_prog, State.reset_plen,
    State.reset_valueStack⟩

end Sys2Proof.Machine
end

section
/-! PROOF. The bounds check of the fetch, on both sides (rules R32, R131). -/

namespace Sys2Proof.Machine

open Sys2Proof.Claims

/-! ## The fetch, in Lean's signed reading of the program counter -/

/-- The fetch reads nothing exactly where the bounds check of rule R32 fails. -/
theorem State.fetchWord_eq_none_iff_not_inBounds (s : State) :
    s.fetchWord = none ↔
      ¬ (0 ≤ (s.readReg .pc).toInt ∧ (s.readReg .pc).toInt < (s.prog.length : Int)) := by
  rw [State.fetchWord_eq_none_iff, signed_eq_toInt, Memory.plen]
  omega

theorem State.fetchWord_eq_some_iff (s : State) (w : Word) :
    s.fetchWord = some w ↔
      0 ≤ (s.readReg .pc).toInt ∧ s.prog[(s.readReg .pc).toInt.toNat]? = some w := by
  rw [← signed_eq_toInt]
  exact Memory.progRead_eq_some_iff _ _ _

/-- The signed program counter after a fetch is one more than before it (rule R16). -/
theorem toInt_pc_afterFetch_of_fetches {s : State} {w : Word} (h : Fetches s w) :
    (s.afterFetch.readReg .pc).toInt = (s.readReg .pc).toInt + 1 := by
  obtain ⟨_, hwf, hw⟩ := h
  rw [← signed_eq_toInt, ← signed_eq_toInt]
  exact State.signed_pc_afterFetch hw hwf

/-! ## The step on both sides of the bounds -/

theorem step_of_fetches {s : State} {w : Word} (h : Fetches s w) : step s = decodeExecute w s.afterFetch := by
  obtain ⟨hrun, hwf, hw⟩ := h
  rw [step_running hrun hwf, cycle_of_some hw]

/-- A fetched Halt ends the run with only the fetch increment done (rule R110). -/
theorem step_of_fetches_halt {s : State} {w : Word} (h : Fetches s w) (hd : decode w = .instr .halt) :
    step s = .next (s.afterFetch.setStatus .halted) := by
  rw [step_of_fetches h, decodeExecute_next_iff]
  exact .inl ⟨.halt, hd, rfl⟩

/-- A failed bounds check raises OutOfBounds and keeps every register (rule R131). -/
theorem stepEnds_outOfBounds_of_fetchWord_eq_none {s : State} (hrun : s.status = .running) (hwf : s.prog.wf = true)
    (hw : s.fetchWord = none) : StepEnds s s.readReg (.faulted .outOfBounds) := by
  refine ⟨s.beginCycle.setStatus (.faulted .outOfBounds), ?_, fun r => ?_, ?_, ?_, ?_⟩
  · rw [step_running hrun hwf, cycle_of_none hw, raise_next_iff]
  · rw [State.readReg_setStatus, State.readReg_beginCycle]
  · rw [State.setStatus_status]
  · rw [State.setStatus_prog, State.beginCycle_prog]
  · rw [State.setStatus_valueStack, State.beginCycle_valueStack]

/-- Settles O26, by the two outcomes of the bounds check. -/
theorem fetchOutsideStoreFaults : Obligations.FetchOutsideStoreFaults := by
  intro s hrun hwf
  split
  case isTrue hin =>
    obtain ⟨w, hw⟩ := Option.ne_none_iff_exists'.1 (mt s.fetchWord_eq_none_iff_not_inBounds.1 (not_not.2 hin))
    have hf : Fetches s w := ⟨hrun, hwf, hw⟩
    refine ⟨w, ((s.fetchWord_eq_some_iff w).1 hw).2, hw, fun hlast hd => ?_⟩
    refine ⟨s.afterFetch.setStatus .halted, step_of_fetches_halt hf hd, State.setStatus_status _ _, ?_⟩
    rw [State.readReg_setStatus, toInt_pc_afterFetch_of_fetches hf, hlast]
  case isFalse hout =>
    have hw := s.fetchWord_eq_none_iff_not_inBounds.2 hout
    exact ⟨hw, stepEnds_outOfBounds_of_fetchWord_eq_none hrun hwf hw⟩

end Sys2Proof.Machine
end

section
/-! PROOF. The two faults of the decoder: which words raise them, and what a cycle on such a word leaves (rules R58, R59,
R133, R134). -/

namespace Sys2Proof

open Sys2Proof.Claims

/-! ## The fields of a word given by its bytes (rule R51) -/

@[simp] theorem opField_rawWord (op ra hi lo : Byte) : opField (rawWord op ra hi lo) = op := by
  unfold opField rawWord
  rw [BitVec.extractLsb'_append_eq_of_le (by decide), BitVec.extractLsb'_append_eq_of_le (by decide),
    BitVec.extractLsb'_append_eq_of_le (by decide)]
  exact BitVec.extractLsb'_eq_self

@[simp] theorem raField_rawWord (op ra hi lo : Byte) : raField (rawWord op ra hi lo) = ra := by
  unfold raField rawWord
  rw [BitVec.extractLsb'_append_eq_of_le (by decide), BitVec.extractLsb'_append_eq_of_le (by decide)]
  exact BitVec.extractLsb'_append_eq_right

@[simp] theorem rbField_rawWord (op ra hi lo : Byte) : rbField (rawWord op ra hi lo) = hi := by
  unfold rbField rawWord
  rw [BitVec.extractLsb'_append_eq_of_le (by decide)]
  exact BitVec.extractLsb'_append_eq_right

@[simp] theorem rcField_rawWord (op ra hi lo : Byte) : rcField (rawWord op ra hi lo) = lo := by
  unfold rcField rawWord
  exact BitVec.extractLsb'_append_eq_right

/-! ## Register fields (rule R58) -/

theorem Reg.ofField_eq_none_iff (v : Byte) : Reg.ofField v = none ↔ 7 < v.toNat := by
  unfold Reg.ofField
  split <;> simp only [reduceCtorEq, false_iff, true_iff, imp_false] at * <;> omega

theorem decodeReg_eq_illegalRegister_iff (w : Word) (mk : Reg → Instr) :
    decodeReg w mk = .illegalRegister ↔ 7 < (raField w).toNat := by
  rw [← Reg.ofField_eq_none_iff, decodeReg]
  cases Reg.ofField (raField w) <;> simp

theorem decodeRegs_eq_illegalRegister_iff (w : Word) (mk : Reg → Reg → Reg → Instr) :
    decodeRegs w mk = .illegalRegister ↔
      7 < (raField w).toNat ∨ 7 < (rbField w).toNat ∨ 7 < (rcField w).toNat := by
  simp only [← Reg.ofField_eq_none_iff, decodeRegs]
  cases Reg.ofField (raField w) <;> cases Reg.ofField (rbField w) <;> cases Reg.ofField (rcField w) <;> simp

/-! ## The decoder by format (rules R52, R54) -/

/-- Formats N and J: no register field is read. -/
theorem decode_of_no_register {w : Word} (h : opField w = 0#8 ∨ opField w = 10#8) : ∃ i, decode w = .instr i := by
  unfold decode
  rcases h with h | h <;> rw [h] <;> exact ⟨_, rfl⟩

/-- Formats R, RI and RJ. -/
theorem decode_of_one_register {w : Word}
    (h : opField w = 1#8 ∨ opField w = 3#8 ∨ opField w = 4#8 ∨ opField w = 11#8) :
    ∃ mk, decode w = decodeReg w mk := by
  unfold decode
  rcases h with h | h | h | h <;> rw [h] <;> exact ⟨_, rfl⟩

/-- Format RRR. -/
theorem decode_of_three_registers {w : Word} (lo : 5 ≤ (opField w).toNat) (hi : (opField w).toNat ≤ 9) :
    ∃ mk, decode w = decodeRegs w mk := by
  have h : (opField w).toNat = 5 ∨ (opField w).toNat = 6 ∨ (opField w).toNat = 7 ∨ (opField w).toNat = 8 ∨
      (opField w).toNat = 9 := by omega
  unfold decode
  rcases h with h | h | h | h | h <;> rw [h] <;> exact ⟨_, rfl⟩

/-- The opcode values of rule R59. -/
theorem decode_of_undefined_opcode {w : Word} (h : opField w = 2#8 ∨ 12 ≤ (opField w).toNat) :
    decode w = .undefinedOpcode := by
  rcases h with h2 | h12
  · exact decode_opcode_two h2
  · unfold decode
    split
    case h_13 => rfl
    all_goals omega

/-- Every opcode value belongs to one of the four cases above. -/
theorem opcode_cases (op : Byte) :
    (op = 0#8 ∨ op = 10#8) ∨ (op = 1#8 ∨ op = 3#8 ∨ op = 4#8 ∨ op = 11#8) ∨ (5 ≤ op.toNat ∧ op.toNat ≤ 9) ∨
      (op = 2#8 ∨ 12 ≤ op.toNat) := by
  bv_omega

/-! ## Which words the decoder rejects (rule R61) -/

theorem decode_eq_illegalRegister_iff (w : Word) :
    decode w = .illegalRegister ↔
      ((opField w = 1#8 ∨ opField w = 3#8 ∨ opField w = 4#8 ∨ opField w = 11#8) ∧ 7 < (raField w).toNat) ∨
      (5 ≤ (opField w).toNat ∧ (opField w).toNat ≤ 9 ∧
        (7 < (raField w).toNat ∨ 7 < (rbField w).toNat ∨ 7 < (rcField w).toNat)) := by
  rcases opcode_cases (opField w) with h | h | ⟨lo, hi⟩ | h
  · obtain ⟨i, hd⟩ := decode_of_no_register h
    simp only [hd, reduceCtorEq, false_iff]
    bv_omega
  · obtain ⟨mk, hd⟩ := decode_of_one_register h
    rw [hd, decodeReg_eq_illegalRegister_iff]
    bv_omega
  · obtain ⟨mk, hd⟩ := decode_of_three_registers lo hi
    rw [hd, decodeRegs_eq_illegalRegister_iff]
    bv_omega
  · simp only [decode_of_undefined_opcode h, reduceCtorEq, false_iff]
    bv_omega

end Sys2Proof

namespace Sys2Proof.Machine

open Sys2Proof.Claims

/-! ## A cycle that ends in a fault of the decoder -/

/-- The fetch increment in Lean's own addition (rule R72). -/
theorem State.readReg_afterFetch (s : State) (r : Reg) : s.afterFetch.readReg r = fetched s r := by
  unfold fetched
  split
  case isTrue h =>
    rw [h, State.readReg_afterFetch_pc, wrap32_eq_ofInt, signed_eq_toInt, BitVec.ofInt_add, BitVec.ofInt_toInt]
    rfl
  case isFalse h => exact State.readReg_afterFetch_ne s h

/-- A fatal condition raised after the fetch leaves only the increment and the status (rule R138). -/
theorem stepEnds_of_step_eq_raise {s : State} {c : FatalCondition} (h : step s = raise c s.afterFetch) :
    StepEnds s (fetched s) (.faulted c) := by
  refine ⟨s.afterFetch.setStatus (.faulted c), ?_, fun r => ?_, ?_, ?_, ?_⟩
  · rw [h, raise_next_iff]
  · rw [State.readReg_setStatus, State.readReg_afterFetch]
  · rw [State.setStatus_status]
  · rw [State.setStatus_prog, State.afterFetch_prog]
  · rw [State.setStatus_valueStack, State.afterFetch_valueStack]

theorem stepEnds_undefinedOpcode_of_decode {s : State} {w : Word} (h : Fetches s w)
    (hd : decode w = .undefinedOpcode) : StepEnds s (fetched s) (.faulted .undefinedOpcode) := by
  apply stepEnds_of_step_eq_raise
  rw [step_of_fetches h, decodeExecute, hd]

theorem stepEnds_illegalRegister_of_decode {s : State} {w : Word} (h : Fetches s w)
    (hd : decode w = .illegalRegister) : StepEnds s (fetched s) (.faulted .illegalRegister) := by
  apply stepEnds_of_step_eq_raise
  rw [step_of_fetches h, decodeExecute, hd]

/-- No handler raises IllegalRegister: the register operands of a decoded instruction are legal by their type. -/
theorem exec_status_ne_illegalRegister {i : Instr} {s t : State} (h : exec i s = .next t)
    (hs : s.status ≠ .faulted .illegalRegister) : t.status ≠ .faulted .illegalRegister := by
  rcases exec_next_cases h with ⟨_, rfl⟩ | ⟨_, rfl⟩ | ⟨_, _, _, _, _, rfl⟩ | ⟨rd, v, rfl⟩ | rfl
  · simp
  · simp
  · simp
  · rwa [State.writeReg_status]
  · exact hs

/-- IllegalRegister comes from the decoder alone (rule R134). -/
theorem step_status_ne_illegalRegister_of_decode {s : State} {w : Word} (h : Fetches s w)
    (hd : decode w ≠ .illegalRegister) : ∀ t, step s = .next t → t.status ≠ .faulted .illegalRegister := by
  intro t hstep
  rw [step_of_fetches h, decodeExecute_next_iff] at hstep
  obtain ⟨hrun, _, _⟩ := h
  rcases hstep with ⟨i, _, hexec⟩ | ⟨_, rfl⟩ | ⟨hbad, _⟩
  · exact exec_status_ne_illegalRegister hexec (by simp [hrun])
  · simp
  · exact absurd hbad hd

/-! ## The obligations -/

/-- Settles O27: the decoder rejects these opcode values before it reads any other field. -/
theorem undefinedOpcodeWordFaults : Obligations.UndefinedOpcodeWordFaults := by
  intro s op ra hi lo h hop
  exact stepEnds_undefinedOpcode_of_decode h (decode_of_undefined_opcode (by rwa [opField_rawWord]))

/-- Settles O28: a step ends in IllegalRegister exactly for the words that the decoder rejects for a register field. -/
theorem illegalRegisterFieldFaults : Obligations.IllegalRegisterFieldFaults := by
  intro s op ra hi lo h
  have hreject := decode_eq_illegalRegister_iff (rawWord op ra hi lo)
  simp only [opField_rawWord, raField_rawWord, rbField_rawWord, rcField_rawWord] at hreject
  refine ⟨fun hop hra => ?_, fun h5 h9 hreg => ?_, fun hop hra => ?_, fun h5 h9 hra hhi hlo => ?_, fun hop => ?_⟩
  · exact stepEnds_illegalRegister_of_decode h (hreject.2 (.inl ⟨hop, hra⟩))
  · exact stepEnds_illegalRegister_of_decode h (hreject.2 (.inr ⟨h5, h9, hreg⟩))
  · exact step_status_ne_illegalRegister_of_decode h (mt hreject.1 (by bv_omega))
  · exact step_status_ne_illegalRegister_of_decode h (mt hreject.1 (by bv_omega))
  · exact step_status_ne_illegalRegister_of_decode h (mt hreject.1 (by bv_omega))

end Sys2Proof.Machine
end

section
/-! PROOF. The ALU's subtraction, logical AND, increment and decrement in Lean's own integer arithmetic, and Sub as the
instruction that stores the difference (rules R85, R87, R88, R89, R101). -/

namespace Sys2Proof.Machine

open Sys2Proof.Claims

/-! ## The operations as exact integer results, wrapped -/

/-- Rule R85, the first operand as the minuend. -/
theorem aluSub_eq_ofInt (a b : Word) : aluSub a b = BitVec.ofInt 32 (a.toInt - b.toInt) := by
  rw [aluSub, wrap32_eq_ofInt, signed_eq_toInt, signed_eq_toInt]

@[simp] theorem aluSub_self (a : Word) : aluSub a a = 0#32 := by
  rw [aluSub_eq_ofInt, Int.sub_self, BitVec.ofInt_ofNat]

/-- Rule R88. -/
theorem aluInc_eq_ofInt (a : Word) : aluInc a = BitVec.ofInt 32 (a.toInt + 1) := by
  rw [aluInc, wrap32_eq_ofInt, signed_eq_toInt]

/-- Rule R89. -/
theorem aluDec_eq_ofInt (a : Word) : aluDec a = BitVec.ofInt 32 (a.toInt - 1) := by
  rw [aluDec, wrap32_eq_ofInt, signed_eq_toInt]

/-! ## The logical AND, by the truth values of its operands (rule R87) -/

theorem aluAnd_of_ne_zero {a b : Word} (ha : a ≠ 0#32) (hb : b ≠ 0#32) : aluAnd a b = 1#32 := by
  have hza : isZero a = false := Bool.eq_false_iff.2 (mt (isZero_iff a).1 ha)
  have hzb : isZero b = false := Bool.eq_false_iff.2 (mt (isZero_iff b).1 hb)
  simp [aluAnd, hza, hzb]

theorem aluAnd_of_eq_zero {a b : Word} (h : a = 0#32 ∨ b = 0#32) : aluAnd a b = 0#32 := by
  rcases h with ha | hb
  · simp [aluAnd, (isZero_iff a).2 ha]
  · simp [aluAnd, (isZero_iff b).2 hb]

/-! ## One register written (rule R74) -/

/-- A register write changes its register and nothing else of the state. -/
theorem regWritten_writeReg (s : State) (rd : Reg) (v : Word) : RegWritten s (s.writeReg rd v) rd v :=
  ⟨s.readReg_writeReg_same rd v, fun _ h => s.readReg_writeReg_ne v h, s.writeReg_status rd v, s.writeReg_prog rd v,
    s.writeReg_valueStack rd v, s.writeReg_loadOpen rd v⟩

/-- A three-register handler always completes, with both sources read before the write (rule R105). -/
theorem binaryOp_regWritten (f : Word → Word → Word) (ra rb rc : Reg) (s : State) :
    ∃ t, binaryOp f ra rb rc s = .next t ∧ RegWritten s t rc (f (s.readReg ra) (s.readReg rb)) :=
  ⟨_, (binaryOp_next_iff f ra rb rc s _).2 rfl, regWritten_writeReg s rc _⟩

/-- The meaning of Sub is the shared three-register handler at `alu_sub` (rule R101). -/
theorem exec_sub_eq_binaryOp (ra rb rc : Reg) (s : State) : exec (.sub ra rb rc) s = binaryOp aluSub ra rb rc s := rfl

/-! ## The obligations -/

/-- Settles O48: the difference in Lean's integers, the wrapping examples, and Sub as the handler that stores it. -/
theorem aluSubWraps : Obligations.AluSubWraps := by
  refine ⟨aluSub_eq_ofInt, by decide, by decide, by decide, aluSub_self, by decide, fun ra rb rc s => ?_⟩
  rw [exec_sub_eq_binaryOp]
  exact binaryOp_regWritten aluSub ra rb rc s

/-- Settles O50: the truth values of the operands decide the result; both examples have nonzero operands. -/
theorem aluAndIsLogical : Obligations.AluAndIsLogical := by
  intro a b
  refine ⟨fun ⟨ha, hb⟩ => aluAnd_of_ne_zero ha hb, aluAnd_of_eq_zero, ?_, ?_⟩
  · exact aluAnd_of_ne_zero (by decide) (by decide)
  · exact aluAnd_of_ne_zero (by decide) (by decide)

/-- Settles O51: both steps in Lean's integers, and each at the two ends where it wraps. -/
theorem aluIncAndDecWrap : Obligations.AluIncAndDecWrap :=
  ⟨fun a => ⟨aluInc_eq_ofInt a, aluDec_eq_ofInt a⟩, by decide, by decide, by decide, by decide⟩

end Sys2Proof.Machine
end

section
/-! PROOF. One cycle on a word of opcode 1, Load, and of opcode 2, Store (rules R90, R91). -/

namespace Sys2Proof

open Sys2Proof.Claims

/-! ## The payload of a word given by its bytes (rules R51, R56) -/

@[simp] theorem payloadField_rawWord (op ra hi lo : Byte) : payloadField (rawWord op ra hi lo) = hi ++ lo := by
  unfold payloadField rawWord
  rw [BitVec.append_assoc]
  exact BitVec.extractLsb'_append_eq_right

theorem sext32_eq_ofInt (v : BitVec 16) : sext32 v = BitVec.ofInt 32 v.toInt := rfl

@[simp] theorem toInt_sext32 (v : BitVec 16) : (sext32 v).toInt = v.toInt :=
  BitVec.toInt_signExtend_of_le (by decide)

/-! ## The decoder on a legal register field (rules R55, R61) -/

@[simp] theorem Reg.ofField_index (r : Reg) : Reg.ofField r.index = some r := by
  cases r with
  | pc | a | b | c | d | e | f | g => rfl

theorem decodeReg_of_raField_eq_index {w : Word} {r : Reg} (h : raField w = r.index) (mk : Reg → Instr) :
    decodeReg w mk = .instr (mk r) := by
  rw [decodeReg, h, Reg.ofField_index]

theorem decode_opcode_one {w : Word} (h : opField w = 1#8) :
    decode w = decodeReg w (fun ra => .load ra (sext32 (payloadField w))) := by
  unfold decode
  rw [h]
  rfl

theorem decode_rawWord_load (r : Reg) (hi lo : Byte) :
    decode (rawWord 1 r.index hi lo) = .instr (.load r (sext32 (hi ++ lo))) := by
  rw [decode_opcode_one (opField_rawWord 1 _ _ _), decodeReg_of_raField_eq_index (raField_rawWord _ _ _ _),
    payloadField_rawWord]

end Sys2Proof

namespace Sys2Proof.Machine

open Sys2Proof.Claims

/-! ## A cycle that completes with one register written -/

theorem step_of_fetches_instr {s : State} {w : Word} {i : Instr} (h : Fetches s w) (hd : decode w = .instr i) :
    step s = exec i s.afterFetch := by
  rw [step_of_fetches h, decodeExecute, hd]

/-- The one write comes after the fetch increment, so it wins where it names slot 0 (rules R13, R113). -/
theorem stepEnds_of_step_eq_writeResult {s : State} {rd : Reg} {v : Word} (hrun : s.status = .running)
    (h : step s = writeResult rd v s.afterFetch) : StepEnds s (upd (fetched s) rd v) .running := by
  refine ⟨s.afterFetch.writeReg rd v, ?_, fun r => ?_, ?_, ?_, ?_⟩
  · rw [h, writeResult_next_iff]
  · rw [State.readReg_writeReg, State.readReg_afterFetch, upd]
  · rw [State.writeReg_status, State.afterFetch_status, hrun]
  · rw [State.writeReg_prog, State.afterFetch_prog]
  · rw [State.writeReg_valueStack, State.afterFetch_valueStack]

/-! ## Load -/

/-- The meaning of Load is the shared register write (rule R90). -/
theorem exec_load_eq_writeResult (ra : Reg) (v : Word) (s : State) : exec (.load ra v) s = writeResult ra v s := rfl

theorem step_of_fetches_load {s : State} {r : Reg} {hi lo : Byte} (h : Fetches s (rawWord 1 r.index hi lo)) :
    step s = writeResult r (sext32 (hi ++ lo)) s.afterFetch := by
  rw [step_of_fetches_instr h (decode_rawWord_load r hi lo), exec_load_eq_writeResult]

/-! ## A program counter written by a handler is checked by the next fetch alone (rules R32, R113) -/

theorem State.fetchWord_writeReg_pc (s : State) (v : Word) : (s.writeReg .pc v).fetchWord = s.prog.progRead v.toInt := by
  rw [State.fetchWord, State.readReg_writeReg_same, signed_eq_toInt, State.writeReg_prog]

/-- Slot 0 at an index outside the Program Store faults in the next cycle, with every register kept (rule R131). -/
theorem stepEnds_outOfBounds_of_writeReg_pc {s : State} {v : Word} (hrun : s.status = .running) (hwf : s.prog.wf = true)
    (hv : v.toInt < 0 ∨ (s.prog.length : Int) ≤ v.toInt) :
    StepEnds (s.writeReg .pc v) (s.writeReg .pc v).readReg (.faulted .outOfBounds) := by
  apply stepEnds_outOfBounds_of_fetchWord_eq_none
  · rwa [State.writeReg_status]
  · rwa [State.writeReg_prog]
  · rwa [State.fetchWord_writeReg_pc, Memory.progRead_eq_none_iff]

/-! ## The obligations -/

/-- Settles O15: a legal `ra` completes with the extended immediate, any other is O28's fault, and `Load PC` leaves the
immediate for the bounds check of the next fetch. -/
theorem loadWordLoadsImmediate : Obligations.LoadWordLoadsImmediate := by
  intro s ra hi lo h
  have ⟨hrun, hwf, _⟩ := h
  refine ⟨?legal, fun hra => ?illegal, ?pc⟩
  case legal =>
    rintro r rfl
    rw [← sext32_eq_ofInt]
    exact stepEnds_of_step_eq_writeResult hrun (step_of_fetches_load h)
  case illegal =>
    apply stepEnds_illegalRegister_of_decode h
    rwa [decode_opcode_one (opField_rawWord 1 _ _ _), decodeReg_eq_illegalRegister_iff, raField_rawWord]
  case pc =>
    rintro rfl t hstep
    rw [step_of_fetches_load (r := .pc) h, writeResult_next_iff] at hstep
    subst hstep
    refine ⟨?_, fun hout => ?_⟩
    · rw [State.fetchWord_writeReg_pc, toInt_sext32, State.afterFetch_prog]
    · exact stepEnds_outOfBounds_of_writeReg_pc hrun hwf (by rwa [toInt_sext32])

/-- Settles O16: the decoder has no instruction for opcode 2 and raises, whatever the low 24 bits. -/
theorem storeWordFaults : Obligations.StoreWordFaults := by
  intro s ra hi lo h
  exact stepEnds_undefinedOpcode_of_decode h (decode_opcode_two (opField_rawWord 2 ra hi lo))

end Sys2Proof.Machine
end

section
/-! PROOF. One cycle on a word of opcode 3, Inc, and of opcode 4, Dec, and the hang of `Dec PC` (rules R95, R96). -/

namespace Sys2Proof

theorem decode_opcode_three {w : Word} (h : opField w = 3#8) : decode w = decodeReg w .inc := by
  unfold decode
  rw [h]
  rfl

theorem decode_opcode_four {w : Word} (h : opField w = 4#8) : decode w = decodeReg w .dec := by
  unfold decode
  rw [h]
  rfl

end Sys2Proof

namespace Sys2Proof.Machine

open Sys2Proof.Claims

/-! ## The ALU's increment and decrement in bit-vector arithmetic -/

theorem aluInc_eq_add (a : Word) : aluInc a = a + 1#32 := by
  rw [aluInc_eq_ofInt, BitVec.ofInt_add, BitVec.ofInt_toInt]
  rfl

theorem aluDec_eq_sub (a : Word) : aluDec a = a - 1#32 := by
  rw [aluDec_eq_ofInt, Int.sub_eq_add_neg, BitVec.ofInt_add, BitVec.ofInt_toInt, BitVec.sub_eq_add_neg]
  rfl

/-! ## Writing a register back -/

@[simp] theorem RegFile.write_read (x : RegFile) (r : Reg) : x.write r (x.read r) = x := by
  cases r with
  | pc | a | b | c | d | e | f | g => rfl

@[simp] theorem State.writeReg_readReg (s : State) (r : Reg) : s.writeReg r (s.readReg r) = s := by
  rw [State.writeReg, State.readReg, RegFile.write_read]

@[simp] theorem State.writeReg_writeReg (s : State) (r : Reg) (v w : Word) :
    (s.writeReg r v).writeReg r w = s.writeReg r w := by
  rw [State.writeReg, State.writeReg_x, RegFile.write_write]
  rfl

/-- Slot 0 back at its value before the cycle undoes the fetch increment. -/
theorem State.afterFetch_writeReg_pc (s : State) : s.afterFetch.writeReg .pc (s.readReg .pc) = s.beginCycle := by
  rw [State.afterFetch, State.writeReg_writeReg, ← State.readReg_beginCycle, State.writeReg_readReg]

/-! ## A cycle of a one-register instruction -/

theorem exec_inc_eq_unaryOp (ra : Reg) (s : State) : exec (.inc ra) s = unaryOp aluInc ra s := rfl

theorem exec_dec_eq_unaryOp (ra : Reg) (s : State) : exec (.dec ra) s = unaryOp aluDec ra s := rfl

/-- The handler reads its register as the fetch left it, then writes it (rules R12, R74). -/
theorem stepEnds_of_step_eq_unaryOp {s : State} {f : Word → Word} {r : Reg} (hrun : s.status = .running)
    (h : step s = unaryOp f r s.afterFetch) : StepEnds s (upd (fetched s) r (f (fetched s r))) .running := by
  rw [← State.readReg_afterFetch]
  exact stepEnds_of_step_eq_writeResult hrun h

/-- A field of 8 to 255 in `ra` raises IllegalRegister in the formats that read `ra` alone (rules R58, R134). -/
theorem stepEnds_illegalRegister_of_decodeReg {s : State} {w : Word} {mk : Reg → Instr} (h : Fetches s w)
    (hd : decode w = decodeReg w mk) (hra : 7 < (raField w).toNat) :
    StepEnds s (fetched s) (.faulted .illegalRegister) :=
  stepEnds_illegalRegister_of_decode h (hd.trans ((decodeReg_eq_illegalRegister_iff w mk).2 hra))

/-- A legal `ra` runs the instruction of the register it names. -/
theorem step_of_fetches_decodeReg {s : State} {w : Word} {mk : Reg → Instr} {r : Reg} (h : Fetches s w)
    (hd : decode w = decodeReg w mk) (hra : raField w = r.index) : step s = exec (mk r) s.afterFetch :=
  step_of_fetches_instr h (hd.trans (decodeReg_of_raField_eq_index hra mk))

theorem step_of_fetches_inc {s : State} {r : Reg} {hi lo : Byte} (h : Fetches s (rawWord 3 r.index hi lo)) :
    step s = unaryOp aluInc r s.afterFetch := by
  rw [step_of_fetches_decodeReg h (decode_opcode_three (opField_rawWord 3 _ _ _)) (raField_rawWord _ _ _ _),
    exec_inc_eq_unaryOp]

theorem step_of_fetches_dec {s : State} {r : Reg} {hi lo : Byte} (h : Fetches s (rawWord 4 r.index hi lo)) :
    step s = unaryOp aluDec r s.afterFetch := by
  rw [step_of_fetches_decodeReg h (decode_opcode_four (opField_rawWord 4 _ _ _)) (raField_rawWord _ _ _ _),
    exec_dec_eq_unaryOp]

/-! ## Hangs -/

theorem runFor_succ_of_step {s t : State} (hrun : s.status = .running) (h : step s = .next t) (k : Nat) :
    runFor (k + 1) s = runFor k t := by
  simp only [runFor, hrun, h]

/-- A property of Running states that every step keeps is never left, so `run()` does not return (rule R77). -/
theorem hangs_of_step_keeps {P : State → Prop} (hrun : ∀ s, P s → s.status = .running)
    (hkeep : ∀ s, P s → ∃ t, step s = .next t ∧ P t) {s : State} (hs : P s) : Hangs s := by
  intro k
  induction k generalizing s with
  | zero => exact ⟨s, rfl, hrun s hs⟩
  | succ k ih =>
    obtain ⟨t, hstep, ht⟩ := hkeep s hs
    rw [runFor_succ_of_step (hrun s hs) hstep]
    exact ih ht

/-- A started cycle changes nothing that the fetch looks at. -/
theorem fetches_beginCycle {s : State} {w : Word} (h : Fetches s w) : Fetches s.beginCycle w := h

/-- `Dec PC` undoes the fetch increment: no register changes (rule R96). -/
theorem step_of_fetches_dec_pc {s : State} {hi lo : Byte} (h : Fetches s (rawWord 4 0 hi lo)) :
    step s = .next s.beginCycle := by
  have hback : aluDec (s.afterFetch.readReg .pc) = s.readReg .pc := by
    rw [aluDec_eq_sub, State.readReg_afterFetch, fetched, if_pos rfl, BitVec.add_sub_cancel]
  rw [step_of_fetches_dec (r := .pc) h, unaryOp_next_iff, hback, State.afterFetch_writeReg_pc]

/-- Fetching `Dec PC` is kept by every step: the same word is fetched again (rules R96, R147). -/
theorem hangs_of_fetches_dec_pc {s : State} {hi lo : Byte} (h : Fetches s (rawWord 4 0 hi lo)) : Hangs s :=
  hangs_of_step_keeps (P := fun t => Fetches t (rawWord 4 0 hi lo)) (fun _ ⟨hrun, _, _⟩ => hrun)
    (fun t ht => ⟨t.beginCycle, step_of_fetches_dec_pc ht, fetches_beginCycle ht⟩) h

/-! ## The obligations -/

/-- Settles O17: a legal `ra` is read after the fetch increment, so `Inc PC` counts twice; any other is the decoder's
fault. -/
theorem incWordAddsOne : Obligations.IncWordAddsOne := by
  intro s ra hi lo h
  have ⟨hrun, _, _⟩ := h
  refine ⟨?legal, fun hra => ?illegal⟩
  case legal =>
    rintro r rfl
    rw [← aluInc_eq_add]
    exact stepEnds_of_step_eq_unaryOp hrun (step_of_fetches_inc h)
  case illegal =>
    exact stepEnds_illegalRegister_of_decodeReg h (decode_opcode_three (opField_rawWord 3 _ _ _))
      (by rwa [raField_rawWord])

/-- Settles O18: as for Inc, and `Dec PC` hangs because its step changes nothing that the next fetch looks at. -/
theorem decWordSubtractsOne : Obligations.DecWordSubtractsOne := by
  intro s ra hi lo h
  have ⟨hrun, _, _⟩ := h
  refine ⟨?legal, fun hra => ?illegal, ?pc⟩
  case legal =>
    rintro r rfl
    rw [← aluDec_eq_sub]
    exact stepEnds_of_step_eq_unaryOp hrun (step_of_fetches_dec h)
  case illegal =>
    exact stepEnds_illegalRegister_of_decodeReg h (decode_opcode_four (opField_rawWord 4 _ _ _))
      (by rwa [raField_rawWord])
  case pc =>
    rintro rfl
    exact hangs_of_fetches_dec_pc h

end Sys2Proof.Machine
end

section
/-! PROOF. One cycle on a word of opcode 5, Add, of opcode 6, Sub, of opcode 7, Mul, and of opcode 9, And: one argument for
the three-register words whose handler always writes a result (rules R100, R101, R102, R104, R105). -/

namespace Sys2Proof

/-! ## The decoder on the three-register opcodes (rules R52, R54, R61) -/

theorem decode_opcode_five {w : Word} (h : opField w = 5#8) : decode w = decodeRegs w .add := by
  unfold decode
  rw [h]
  rfl

theorem decode_opcode_six {w : Word} (h : opField w = 6#8) : decode w = decodeRegs w .sub := by
  unfold decode
  rw [h]
  rfl

theorem decode_opcode_seven {w : Word} (h : opField w = 7#8) : decode w = decodeRegs w .mul := by
  unfold decode
  rw [h]
  rfl

theorem decode_opcode_nine {w : Word} (h : opField w = 9#8) : decode w = decodeRegs w .and := by
  unfold decode
  rw [h]
  rfl

theorem decodeRegs_of_fields_eq_index {w : Word} {r1 r2 r3 : Reg} (hra : raField w = r1.index)
    (hrb : rbField w = r2.index) (hrc : rcField w = r3.index) (mk : Reg → Reg → Reg → Instr) :
    decodeRegs w mk = .instr (mk r1 r2 r3) := by
  rw [decodeRegs, hra, hrb, hrc, Reg.ofField_index, Reg.ofField_index, Reg.ofField_index]

end Sys2Proof

namespace Sys2Proof.Machine

open Sys2Proof.Claims

/-! ## The ALU's operations in bit-vector arithmetic (rules R83, R85, R86, R87) -/

theorem aluAdd_eq_add (a b : Word) : aluAdd a b = a + b := by
  rw [aluAdd, wrap32_eq_ofInt, signed_eq_toInt, signed_eq_toInt, BitVec.ofInt_add, BitVec.ofInt_toInt, BitVec.ofInt_toInt]

theorem aluSub_eq_sub (a b : Word) : aluSub a b = a - b := by
  rw [aluSub_eq_ofInt, Int.sub_eq_add_neg, BitVec.ofInt_add, BitVec.ofInt_neg, BitVec.ofInt_toInt, BitVec.ofInt_toInt,
    BitVec.sub_eq_add_neg]

theorem aluMul_eq_mul (a b : Word) : aluMul a b = a * b := by
  rw [aluMul, wrap32_eq_ofInt, signed_eq_toInt, signed_eq_toInt, BitVec.ofInt_mul, BitVec.ofInt_toInt, BitVec.ofInt_toInt]

theorem aluAnd_eq_ite (a b : Word) : aluAnd a b = if a ≠ 0#32 ∧ b ≠ 0#32 then 1#32 else 0#32 := by
  split
  case isTrue h =>
    obtain ⟨ha, hb⟩ := h
    exact aluAnd_of_ne_zero ha hb
  case isFalse h =>
    have hzero : a = 0#32 ∨ b = 0#32 := by tauto
    exact aluAnd_of_eq_zero hzero

/-! ## A cycle of a three-register instruction -/

theorem exec_add_eq_binaryOp (ra rb rc : Reg) (s : State) : exec (.add ra rb rc) s = binaryOp aluAdd ra rb rc s := rfl

theorem exec_mul_eq_binaryOp (ra rb rc : Reg) (s : State) : exec (.mul ra rb rc) s = binaryOp aluMul ra rb rc s := rfl

theorem exec_and_eq_binaryOp (ra rb rc : Reg) (s : State) : exec (.and ra rb rc) s = binaryOp aluAnd ra rb rc s := rfl

/-- The handler reads both sources as the fetch left them, then writes the destination (rules R12, R105). -/
theorem stepEnds_of_step_eq_binaryOp {s : State} {f : Word → Word → Word} {r1 r2 r3 : Reg} (hrun : s.status = .running)
    (h : step s = binaryOp f r1 r2 r3 s.afterFetch) :
    StepEnds s (upd (fetched s) r3 (f (fetched s r1) (fetched s r2))) .running := by
  rw [← State.readReg_afterFetch, ← State.readReg_afterFetch]
  exact stepEnds_of_step_eq_writeResult hrun h

/-- Legal fields run the instruction of the three registers they name. -/
theorem step_of_fetches_decodeRegs {s : State} {w : Word} {mk : Reg → Reg → Reg → Instr} {r1 r2 r3 : Reg}
    (h : Fetches s w) (hd : decode w = decodeRegs w mk) (hra : raField w = r1.index) (hrb : rbField w = r2.index)
    (hrc : rcField w = r3.index) : step s = exec (mk r1 r2 r3) s.afterFetch :=
  step_of_fetches_instr h (hd.trans (decodeRegs_of_fields_eq_index hra hrb hrc mk))

/-- A value of 8 to 255 in any of the three fields raises IllegalRegister (rules R58, R134). -/
theorem stepEnds_illegalRegister_of_decodeRegs {s : State} {w : Word} {mk : Reg → Reg → Reg → Instr} (h : Fetches s w)
    (hd : decode w = decodeRegs w mk)
    (hbad : 7 < (raField w).toNat ∨ 7 < (rbField w).toNat ∨ 7 < (rcField w).toNat) :
    StepEnds s (fetched s) (.faulted .illegalRegister) :=
  stepEnds_illegalRegister_of_decode h (hd.trans ((decodeRegs_eq_illegalRegister_iff w mk).2 hbad))

/-- An opcode that decodes to `mk`, whose meaning is the shared handler at the ALU operation `alu`, computes whatever
function `alu` is. -/
theorem binaryWord_of_exec_eq_binaryOp {op : Byte} {mk : Reg → Reg → Reg → Instr} {alu f : Word → Word → Word}
    (hdecode : ∀ {w : Word}, opField w = op → decode w = decodeRegs w mk)
    (hexec : ∀ r1 r2 r3 s, exec (mk r1 r2 r3) s = binaryOp alu r1 r2 r3 s)
    (halu : ∀ a b, alu a b = f a b) : BinaryWord op f := by
  intro s ra rb rc h
  have ⟨hrun, _, _⟩ := h
  have hd := hdecode (opField_rawWord op ra rb rc)
  refine ⟨?legal, fun hbad => ?illegal⟩
  case legal =>
    rintro r1 r2 r3 rfl rfl rfl
    have hstep : step s = binaryOp alu r1 r2 r3 s.afterFetch := by
      rw [step_of_fetches_decodeRegs h hd (raField_rawWord _ _ _ _) (rbField_rawWord _ _ _ _) (rcField_rawWord _ _ _ _),
        hexec]
    rw [← halu]
    exact stepEnds_of_step_eq_binaryOp hrun hstep
  case illegal =>
    apply stepEnds_illegalRegister_of_decodeRegs h hd
    rwa [raField_rawWord, rbField_rawWord, rcField_rawWord]

/-! ## The obligations -/

/-- Settles O19: `alu_add` is addition modulo 2^32. -/
theorem addWordAdds : Obligations.AddWordAdds :=
  binaryWord_of_exec_eq_binaryOp decode_opcode_five exec_add_eq_binaryOp aluAdd_eq_add

/-- Settles O20: `alu_sub` is subtraction modulo 2^32, its first operand the minuend. -/
theorem subWordSubtracts : Obligations.SubWordSubtracts :=
  binaryWord_of_exec_eq_binaryOp decode_opcode_six exec_sub_eq_binaryOp aluSub_eq_sub

/-- Settles O21: `alu_mul` is the low half of the product. -/
theorem mulWordMultiplies : Obligations.MulWordMultiplies :=
  binaryWord_of_exec_eq_binaryOp decode_opcode_seven exec_mul_eq_binaryOp aluMul_eq_mul

/-- Settles O23: `alu_and` tests its operands for zero and combines the two truth values. -/
theorem andWordIsLogical : Obligations.AndWordIsLogical :=
  binaryWord_of_exec_eq_binaryOp decode_opcode_nine exec_and_eq_binaryOp aluAnd_eq_ite

end Sys2Proof.Machine
end

section
/-! PROOF. One cycle on a word of opcode 10, Jump, and of opcode 11, JumpIfZero: one argument for a taken jump, and the hang
of a Jump to its own index (rules R111, R112). -/

namespace Sys2Proof

open Sys2Proof.Claims

/-! ## The target and the decoder (rules R7, R54, R61) -/

theorem zext32_eq_setWidth (v : BitVec 16) : zext32 v = v.setWidth 32 := rfl

/-- A target is a non-negative index: its top 16 bits are 0. -/
@[simp] theorem toInt_zext32 (v : BitVec 16) : (zext32 v).toInt = (v.toNat : Int) := by
  rw [zext32_eq_setWidth, BitVec.toInt_setWidth]
  exact Int.bmod_eq_of_le (by omega) (by omega)

theorem decode_opcode_ten {w : Word} (h : opField w = 10#8) : decode w = .instr (.jump (zext32 (payloadField w))) := by
  unfold decode
  rw [h]
  rfl

theorem decode_opcode_eleven {w : Word} (h : opField w = 11#8) :
    decode w = decodeReg w (fun ra => .jumpIfZero ra (zext32 (payloadField w))) := by
  unfold decode
  rw [h]
  rfl

end Sys2Proof

namespace Sys2Proof.Machine

open Sys2Proof.Claims

/-! ## The step of a Jump and of a JumpIfZero -/

/-- The meaning of Jump is the shared register write, to slot 0 (rule R111). -/
theorem exec_jump_eq_writeResult (target : Word) (s : State) : exec (.jump target) s = writeResult .pc target s := rfl

theorem exec_jumpIfZero_of_zero {ra : Reg} {target : Word} {s : State} (hz : s.readReg ra = 0#32) :
    exec (.jumpIfZero ra target) s = writeResult .pc target s :=
  (execJumpIfZero_next_iff ra target s _).2 (.inl ⟨hz, rfl⟩)

theorem exec_jumpIfZero_of_ne_zero {ra : Reg} {target : Word} {s : State} (hnz : s.readReg ra ≠ 0#32) :
    exec (.jumpIfZero ra target) s = .next s :=
  (execJumpIfZero_next_iff ra target s _).2 (.inr ⟨hnz, rfl⟩)

theorem step_of_fetches_jump {s : State} {ra hi lo : Byte} (h : Fetches s (rawWord 10 ra hi lo)) :
    step s = writeResult .pc (zext32 (hi ++ lo)) s.afterFetch := by
  rw [step_of_fetches_instr h (decode_opcode_ten (opField_rawWord 10 _ _ _)), payloadField_rawWord,
    exec_jump_eq_writeResult]

theorem step_of_fetches_jumpIfZero {s : State} {r : Reg} {hi lo : Byte} (h : Fetches s (rawWord 11 r.index hi lo)) :
    step s = exec (.jumpIfZero r (zext32 (hi ++ lo))) s.afterFetch := by
  rw [step_of_fetches_decodeReg h (decode_opcode_eleven (opField_rawWord 11 _ _ _)) (raField_rawWord _ _ _ _),
    payloadField_rawWord]

/-- The test reads the register as the fetch left it (rules R12, R112). -/
theorem step_of_fetches_jumpIfZero_taken {s : State} {r : Reg} {hi lo : Byte}
    (h : Fetches s (rawWord 11 r.index hi lo)) (hz : fetched s r = 0#32) :
    step s = writeResult .pc (zext32 (hi ++ lo)) s.afterFetch := by
  rw [← State.readReg_afterFetch] at hz
  rw [step_of_fetches_jumpIfZero h, exec_jumpIfZero_of_zero hz]

theorem step_of_fetches_jumpIfZero_not_taken {s : State} {r : Reg} {hi lo : Byte}
    (h : Fetches s (rawWord 11 r.index hi lo)) (hnz : fetched s r ≠ 0#32) : step s = .next s.afterFetch := by
  rw [← State.readReg_afterFetch] at hnz
  rw [step_of_fetches_jumpIfZero h, exec_jumpIfZero_of_ne_zero hnz]

/-! ## A cycle that writes slot 0, and the cycle after it (rules R32, R113) -/

theorem State.readReg_afterFetch_writeReg (s : State) (rd : Reg) (v : Word) :
    (s.afterFetch.writeReg rd v).readReg = upd (fetched s) rd v := by
  funext r
  rw [State.readReg_writeReg, State.readReg_afterFetch, upd]

/-- The next fetch is at the value written to slot 0, and it alone checks that value. -/
theorem next_fetch_of_step_eq_writeResult_pc {s t : State} {v : Word} (hrun : s.status = .running)
    (hwf : s.prog.wf = true) (h : step s = writeResult .pc v s.afterFetch) (ht : step s = .next t) :
    t.fetchWord = s.prog.progRead v.toInt ∧
      (v.toInt < 0 ∨ (s.prog.length : Int) ≤ v.toInt →
        StepEnds t (upd (fetched s) .pc v) (.faulted .outOfBounds)) := by
  rw [h, writeResult_next_iff] at ht
  subst ht
  rw [← State.readReg_afterFetch_writeReg]
  exact ⟨State.fetchWord_writeReg_pc _ _, stepEnds_outOfBounds_of_writeReg_pc (s := s.afterFetch) hrun hwf⟩

/-- A taken jump: the target replaces the fetch increment in slot 0, and is unchecked until the next fetch. -/
theorem stepEnds_and_next_fetch_of_step_eq_jump {s : State} {target : BitVec 16} (hrun : s.status = .running)
    (hwf : s.prog.wf = true) (h : step s = writeResult .pc (zext32 target) s.afterFetch) :
    StepEnds s (upd (fetched s) .pc (target.setWidth 32)) .running ∧
      ∀ t, step s = .next t → t.fetchWord = s.prog.progRead (target.toNat : Int) ∧
        (s.prog.length ≤ target.toNat →
          StepEnds t (upd (fetched s) .pc (target.setWidth 32)) (.faulted .outOfBounds)) := by
  rw [← zext32_eq_setWidth]
  refine ⟨stepEnds_of_step_eq_writeResult hrun h, fun t ht => ?_⟩
  obtain ⟨hfetch, hfault⟩ := next_fetch_of_step_eq_writeResult_pc hrun hwf h ht
  rw [toInt_zext32] at hfetch hfault
  exact ⟨hfetch, fun hout => hfault (.inr (Int.ofNat_le.2 hout))⟩

/-! ## A jump that is not taken -/

/-- A handler that writes nothing leaves the fetch increment as the cycle's only change. -/
theorem stepEnds_of_step_eq_next_afterFetch {s : State} (hrun : s.status = .running)
    (h : step s = .next s.afterFetch) : StepEnds s (fetched s) .running := by
  refine ⟨s.afterFetch, h, s.readReg_afterFetch, ?_, s.afterFetch_prog, s.afterFetch_valueStack⟩
  rw [State.afterFetch_status, hrun]

/-- The program counter is at least 1 after a fetch, so `JumpIfZero PC` is never taken (rule R112). -/
theorem fetched_pc_ne_zero {s : State} {w : Word} (h : Fetches s w) : fetched s .pc ≠ 0#32 := by
  intro hzero
  have hpc := toInt_pc_afterFetch_of_fetches h
  obtain ⟨_, _, hw⟩ := h
  obtain ⟨hnonneg, _⟩ := (s.fetchWord_eq_some_iff w).1 hw
  rw [State.readReg_afterFetch, hzero, BitVec.toInt_zero] at hpc
  omega

/-! ## A Jump to its own index (rules R111, R147) -/

/-- The target undoes the fetch increment: no register changes. -/
theorem step_of_fetches_jump_self {s : State} {ra hi lo : Byte} (h : Fetches s (rawWord 10 ra hi lo))
    (hself : zext32 (hi ++ lo) = s.readReg .pc) : step s = .next s.beginCycle := by
  rw [step_of_fetches_jump h, hself, writeResult_next_iff, State.afterFetch_writeReg_pc]

/-- Fetching a Jump to the index of the fetch is kept by every step. -/
theorem hangs_of_fetches_jump_self {s : State} {ra hi lo : Byte} (h : Fetches s (rawWord 10 ra hi lo))
    (hself : zext32 (hi ++ lo) = s.readReg .pc) : Hangs s :=
  hangs_of_step_keeps (P := fun t => Fetches t (rawWord 10 ra hi lo) ∧ zext32 (hi ++ lo) = t.readReg .pc)
    (fun _ ⟨⟨hrun, _, _⟩, _⟩ => hrun)
    (fun t ⟨hf, hs⟩ => ⟨t.beginCycle, step_of_fetches_jump_self hf hs, fetches_beginCycle hf, hs⟩) ⟨h, hself⟩

/-! ## The obligations -/

/-- Settles O24: every Jump is a taken jump, whatever its bits 23 to 16, and one to its own index is fetched for ever. -/
theorem jumpWordReplacesPc : Obligations.JumpWordReplacesPc := by
  intro s ra hi lo h
  have ⟨hrun, hwf, _⟩ := h
  obtain ⟨hends, hnext⟩ := stepEnds_and_next_fetch_of_step_eq_jump hrun hwf (step_of_fetches_jump h)
  refine ⟨hends, hnext, fun hself => ?_⟩
  apply hangs_of_fetches_jump_self h
  apply BitVec.eq_of_toInt_eq
  rwa [toInt_zext32]

/-- Settles O25: a legal `ra` that reads zero after the fetch is a taken jump, any other value leaves the fetch increment
alone, as PC always does; an illegal `ra` is the decoder's fault. -/
theorem jumpIfZeroWordTestsRegister : Obligations.JumpIfZeroWordTestsRegister := by
  intro s ra hi lo h
  have ⟨hrun, hwf, _⟩ := h
  refine ⟨?legal, fun hra => ?illegal, ?pc⟩
  case legal =>
    rintro r rfl
    split
    case isTrue hz => exact stepEnds_and_next_fetch_of_step_eq_jump hrun hwf (step_of_fetches_jumpIfZero_taken h hz)
    case isFalse hnz => exact stepEnds_of_step_eq_next_afterFetch hrun (step_of_fetches_jumpIfZero_not_taken h hnz)
  case illegal =>
    exact stepEnds_illegalRegister_of_decodeReg h (decode_opcode_eleven (opField_rawWord 11 _ _ _))
      (by rwa [raField_rawWord])
  case pc =>
    rintro rfl
    exact stepEnds_of_step_eq_next_afterFetch hrun
      (step_of_fetches_jumpIfZero_not_taken (r := .pc) h (fetched_pc_ne_zero h))

end Sys2Proof.Machine
end

section
/-! PROOF. The whole effect of each handler in every state, and what no handler touches (rules R13, R74). -/

namespace Sys2Proof.Machine

open Sys2Proof.Claims

/-! ## The quotient in Lean's integers (rules R7, R84) -/

/-- The spec's quotient, magnitude and sign apart, is the library's truncating division. -/
theorem tdiv_eq_tdiv (a b : Int) : tdiv a b = Int.tdiv a b := by
  have hnonneg (n : Nat) : ¬ ((n : Int) < 0) := by omega
  cases a with
  | ofNat m =>
    cases b with
    | ofNat n => simp [tdiv, Int.tdiv, hnonneg]
    | negSucc n => simp [tdiv, Int.tdiv, hnonneg, Int.negSucc_lt_zero]
  | negSucc m =>
    cases b with
    | ofNat n => simp [tdiv, Int.tdiv, hnonneg, Int.negSucc_lt_zero]
    | negSucc n => simp [tdiv, Int.tdiv, Int.negSucc_lt_zero]

/-! ## The two shapes of a handler's effect -/

/-- A status write changes the status and nothing else of the state. -/
theorem statusWritten_setStatus (s : State) (st : Status) : StatusWritten s (s.setStatus st) st :=
  ⟨s.setStatus_status st, s.readReg_setStatus st, s.setStatus_prog st, s.setStatus_valueStack st, s.setStatus_loadOpen st⟩

theorem writeResult_regWritten (rd : Reg) (v : Word) (s : State) :
    ∃ t, writeResult rd v s = .next t ∧ RegWritten s t rd v :=
  ⟨_, rfl, regWritten_writeReg s rd v⟩

theorem exec_div_of_zero {ra rb rc : Reg} {s : State} (h : s.readReg rb = 0#32) :
    exec (.div ra rb rc) s = raise .divisionByZero s :=
  (execDiv_next_iff ra rb rc s _).2 (.inl ⟨h, rfl⟩)

theorem exec_div_of_ne_zero {ra rb rc : Reg} {s : State} (h : s.readReg rb ≠ 0#32) :
    exec (.div ra rb rc) s =
      writeResult rc (BitVec.ofInt 32 (Int.tdiv (s.readReg ra).toInt (s.readReg rb).toInt)) s := by
  rw [← signed_eq_toInt, ← signed_eq_toInt, ← tdiv_eq_tdiv, ← wrap32_eq_ofInt]
  exact (execDiv_next_iff ra rb rc s _).2 (.inr ⟨h, rfl⟩)

/-! ## The obligations, one per handler -/

/-- Settles O1: Halt is the status write alone. -/
theorem haltCompletes : Obligations.HaltCompletes := fun s => ⟨_, rfl, statusWritten_setStatus s .halted⟩

/-- Settles O2: Load is the shared register write. -/
theorem loadCompletes : Obligations.LoadCompletes := by
  intro ra v s
  rw [exec_load_eq_writeResult]
  exact writeResult_regWritten ra v s

/-- Settles O3: Store raises, and raising is the status write alone. -/
theorem storeTakesUndefinedOpcode : Obligations.StoreTakesUndefinedOpcode := fun s =>
  ⟨_, rfl, statusWritten_setStatus s (.faulted .undefinedOpcode)⟩

/-- Settles O4: Inc writes back what `alu_inc` gives. -/
theorem incCompletes : Obligations.IncCompletes := by
  intro ra s
  rw [exec_inc_eq_unaryOp, ← aluInc_eq_add]
  exact writeResult_regWritten ra _ s

/-- Settles O5: Dec writes back what `alu_dec` gives. -/
theorem decCompletes : Obligations.DecCompletes := by
  intro ra s
  rw [exec_dec_eq_unaryOp, ← aluDec_eq_sub]
  exact writeResult_regWritten ra _ s

/-- Settles O6: Add is the shared three-register handler at `alu_add`. -/
theorem addCompletes : Obligations.AddCompletes := by
  intro ra rb rc s
  rw [exec_add_eq_binaryOp, ← aluAdd_eq_add]
  exact binaryOp_regWritten aluAdd ra rb rc s

/-- Settles O7: Sub is the shared three-register handler at `alu_sub`. -/
theorem subCompletes : Obligations.SubCompletes := by
  intro ra rb rc s
  rw [exec_sub_eq_binaryOp, ← aluSub_eq_sub]
  exact binaryOp_regWritten aluSub ra rb rc s

/-- Settles O8: Mul is the shared three-register handler at `alu_mul`. -/
theorem mulCompletes : Obligations.MulCompletes := by
  intro ra rb rc s
  rw [exec_mul_eq_binaryOp, ← aluMul_eq_mul]
  exact binaryOp_regWritten aluMul ra rb rc s

/-- Settles O9: a nonzero divisor makes Div a register write. -/
theorem divCompletes : Obligations.DivCompletes := by
  intro ra rb rc s h
  rw [exec_div_of_ne_zero h]
  exact writeResult_regWritten rc _ s

/-- Settles O10: a zero divisor makes Div a status write. -/
theorem divByZeroTakesFault : Obligations.DivByZeroTakesFault := by
  intro ra rb rc s h
  rw [exec_div_of_zero h]
  exact ⟨_, rfl, statusWritten_setStatus s (.faulted .divisionByZero)⟩

/-- Settles O11: And is the shared three-register handler at `alu_and`. -/
theorem andCompletes : Obligations.AndCompletes := by
  intro ra rb rc s
  rw [exec_and_eq_binaryOp, ← aluAnd_eq_ite]
  exact binaryOp_regWritten aluAnd ra rb rc s

/-- Settles O12: Jump is the shared register write at slot 0. -/
theorem jumpCompletes : Obligations.JumpCompletes := by
  intro target s
  rw [exec_jump_eq_writeResult]
  exact writeResult_regWritten .pc target s

/-- Settles O13: the zero test decides between the register write and no write. -/
theorem jumpIfZeroCompletes : Obligations.JumpIfZeroCompletes := by
  intro ra target s
  split
  case isTrue hz =>
    rw [exec_jumpIfZero_of_zero hz]
    exact writeResult_regWritten .pc target s
  case isFalse hnz => exact exec_jumpIfZero_of_ne_zero hnz

end Sys2Proof.Machine
end

section
/-! PROOF. What no handler touches, and what influences it: its frame and its sources (rules R13, R74). -/

namespace Sys2Proof.Machine

open Sys2Proof.Claims

/-! ## The frame of a handler -/

/-- A handler leaves the Program Store, the value-stack and the load window alone. -/
theorem exec_frame {i : Instr} {s t : State} (h : exec i s = .next t) :
    t.prog = s.prog ∧ t.valueStack = s.valueStack ∧ t.loadOpen = s.loadOpen := by
  rcases exec_next_cases h with ⟨_, rfl⟩ | ⟨_, rfl⟩ | ⟨_, _, _, _, _, rfl⟩ | ⟨rd, v, rfl⟩ | rfl
  all_goals exact ⟨rfl, rfl, rfl⟩

/-- No handler of the dispatch is without a meaning (rule R73). -/
theorem exec_completes (i : Instr) (s : State) : ∃ t, exec i s = .next t := by
  cases i with
  | div ra rb rc =>
    by_cases h : s.readReg rb = 0#32
    · exact ⟨_, exec_div_of_zero h⟩
    · exact ⟨_, exec_div_of_ne_zero h⟩
  | jumpIfZero ra target =>
    by_cases h : s.readReg ra = 0#32
    · exact ⟨_, exec_jumpIfZero_of_zero h⟩
    · exact ⟨_, exec_jumpIfZero_of_ne_zero h⟩
  | halt | load | store | inc | dec | add | sub | mul | and | jump => exact ⟨_, rfl⟩

theorem readReg_of_writeResult_next {rd r : Reg} {v : Word} {s t : State} (h : writeResult rd v s = .next t)
    (hr : r ∉ [rd]) : t.readReg r = s.readReg r := by
  obtain rfl := (writeResult_next_iff rd v s t).1 h
  exact s.readReg_writeReg_ne v (List.ne_of_not_mem_cons hr)

/-- A handler keeps every register that is not its destination (rule R13). -/
theorem exec_readReg_of_not_mem_dests {i : Instr} {s t : State} {r : Reg} (h : exec i s = .next t) (hr : r ∉ dests i) :
    t.readReg r = s.readReg r := by
  cases i with
  | halt => rw [(halt_next_iff s t).1 h, State.readReg_setStatus]
  | store => rw [(raise_next_iff _ s t).1 h, State.readReg_setStatus]
  | div ra rb rc =>
    by_cases hz : s.readReg rb = 0#32
    · rw [exec_div_of_zero hz, raise_next_iff] at h
      rw [h, State.readReg_setStatus]
    · rw [exec_div_of_ne_zero hz] at h
      exact readReg_of_writeResult_next h hr
  | jumpIfZero ra target =>
    by_cases hz : s.readReg ra = 0#32
    · rw [exec_jumpIfZero_of_zero hz] at h
      exact readReg_of_writeResult_next h hr
    · rw [exec_jumpIfZero_of_ne_zero hz] at h
      cases h
      rfl
  | load | inc | dec | add | sub | mul | and | jump => exact readReg_of_writeResult_next h hr

/-- Settles O35: destinations by the handlers, statuses by the cases of `exec_next_cases`. -/
theorem execWritesOnlyItsDestination : Obligations.ExecWritesOnlyItsDestination := by
  intro i s t h
  obtain ⟨hprog, hstack, hopen⟩ := exec_frame h
  refine ⟨fun r hr => exec_readReg_of_not_mem_dests h hr, hprog, hstack, hopen, ?_⟩
  rcases exec_next_cases h with ⟨hi, rfl⟩ | ⟨hi, rfl⟩ | ⟨ra, rb, rc, hi, hz, rfl⟩ | ⟨rd, v, rfl⟩ | rfl
  · exact .inr (.inl ⟨rfl, hi⟩)
  · exact .inr (.inr (.inl ⟨rfl, hi⟩))
  · exact .inr (.inr (.inr ⟨rfl, ra, rb, rc, hi, hz⟩))
  · exact .inl (State.writeReg_status _ _ _)
  · exact .inl rfl

/-! ## What influences a handler -/

/-- `s` and `u` differ at most in register `r` (the Program Store and what else no handler reads aside). -/
def AgreeOff (r : Reg) (s u : State) : Prop := u.status = s.status ∧ ∀ q, q ≠ r → u.readReg q = s.readReg q

theorem agreeOff_writeReg (r : Reg) (v : Word) (s : State) : AgreeOff r s (s.writeReg r v) :=
  ⟨s.writeReg_status r v, fun _ hq => s.readReg_writeReg_ne v hq⟩

theorem AgreeOff.writeReg {r : Reg} {s u : State} (h : AgreeOff r s u) (rd : Reg) (v : Word) :
    AgreeOff r (s.writeReg rd v) (u.writeReg rd v) := by
  obtain ⟨hst, hreg⟩ := h
  refine ⟨hst, fun q hq => ?_⟩
  rw [State.readReg_writeReg, State.readReg_writeReg, hreg q hq]

theorem AgreeOff.setStatus {r : Reg} {s u : State} (h : AgreeOff r s u) (st : Status) :
    AgreeOff r (s.setStatus st) (u.setStatus st) := by
  obtain ⟨_, hreg⟩ := h
  exact ⟨rfl, hreg⟩

/-- `o` answers a next state that differs from `t` at most in register `r`. -/
def NextOff (r : Reg) (t : State) (o : Host.Outcome State Fault Refusal) : Prop := ∃ u, o = .next u ∧ AgreeOff r t u

theorem AgreeOff.writeResult {r rd : Reg} {v : Word} {s u t : State} (h : AgreeOff r s u)
    (ht : writeResult rd v s = .next t) : NextOff r t (writeResult rd v u) := by
  obtain rfl := (writeResult_next_iff rd v s t).1 ht
  exact ⟨_, rfl, h.writeReg rd v⟩

theorem AgreeOff.raise {r : Reg} {c : FatalCondition} {s u t : State} (h : AgreeOff r s u)
    (ht : raise c s = .next t) : NextOff r t (raise c u) := by
  obtain rfl := (raise_next_iff c s t).1 ht
  exact ⟨_, rfl, h.setStatus _⟩

theorem AgreeOff.unaryOp {r ra : Reg} {f : Word → Word} {s u t : State} (h : AgreeOff r s u) (hr : r ∉ [ra])
    (ht : unaryOp f ra s = .next t) : NextOff r t (unaryOp f ra u) := by
  have ⟨_, hreg⟩ := h
  rw [Machine.unaryOp, hreg ra (List.ne_of_not_mem_cons hr).symm]
  exact h.writeResult ht

theorem AgreeOff.readReg_pair {r ra rb : Reg} {s u : State} (h : AgreeOff r s u) (hr : r ∉ [ra, rb]) :
    u.readReg ra = s.readReg ra ∧ u.readReg rb = s.readReg rb := by
  obtain ⟨_, hreg⟩ := h
  simp only [List.mem_cons, List.not_mem_nil, or_false, not_or] at hr
  obtain ⟨ha, hb⟩ := hr
  exact ⟨hreg ra (Ne.symm ha), hreg rb (Ne.symm hb)⟩

theorem AgreeOff.binaryOp {r ra rb rc : Reg} {f : Word → Word → Word} {s u t : State} (h : AgreeOff r s u)
    (hr : r ∉ [ra, rb]) (ht : binaryOp f ra rb rc s = .next t) : NextOff r t (binaryOp f ra rb rc u) := by
  obtain ⟨ha, hb⟩ := h.readReg_pair hr
  rw [Machine.binaryOp, ha, hb]
  exact h.writeResult ht

/-- From states that differ outside an instruction's sources only, its handler answers states that differ there only. -/
theorem AgreeOff.exec {i : Instr} {r : Reg} {s u t : State} (h : AgreeOff r s u) (hr : r ∉ sources i)
    (ht : exec i s = .next t) : NextOff r t (exec i u) := by
  cases i with
  | halt =>
    obtain rfl := (halt_next_iff s t).1 ht
    exact ⟨_, rfl, h.setStatus _⟩
  | store => exact h.raise ht
  | load | jump => exact h.writeResult ht
  | inc | dec => exact h.unaryOp hr ht
  | add | sub | mul | and => exact h.binaryOp hr ht
  | div ra rb rc =>
    obtain ⟨ha, hb⟩ := h.readReg_pair hr
    by_cases hz : s.readReg rb = 0#32
    · rw [exec_div_of_zero hz] at ht
      rw [exec_div_of_zero (hb.trans hz)]
      exact h.raise ht
    · rw [exec_div_of_ne_zero hz] at ht
      rw [exec_div_of_ne_zero (hb.symm ▸ hz), ha, hb]
      exact h.writeResult ht
  | jumpIfZero ra target =>
    have ⟨_, hreg⟩ := h
    have ha : u.readReg ra = s.readReg ra := hreg ra (List.ne_of_not_mem_cons hr).symm
    by_cases hz : s.readReg ra = 0#32
    · rw [exec_jumpIfZero_of_zero hz] at ht
      rw [exec_jumpIfZero_of_zero (ha.trans hz)]
      exact h.writeResult ht
    · rw [exec_jumpIfZero_of_ne_zero hz] at ht
      rw [exec_jumpIfZero_of_ne_zero (ha.symm ▸ hz)]
      cases ht
      exact ⟨u, rfl, h⟩

/-- Settles O36: the changed register is outside the sources, and the two runs stay apart in it only. -/
theorem unreadRegistersDoNotMatter : Obligations.UnreadRegistersDoNotMatter := by
  intro i s t r v h hr
  exact (agreeOff_writeReg r v s).exec hr h

end Sys2Proof.Machine
end

section
/-! PROOF. The decoder and the encoder as inverses: the rows of the opcode table as a relation between a word and an
instruction, and the bits a format reads (rules R51 to R61). -/

namespace Sys2Proof

open Sys2Proof.Claims

/-! ## A word by its parts (rule R51) -/

theorem packWord_eq_append (op ra : Byte) (p : BitVec 16) : packWord op ra p = op ++ ra ++ p := by
  apply BitVec.eq_of_toNat_eq
  have hp := p.isLt
  have hra := ra.isLt
  rw [Laws.CanonicalWord.packWord_toNat, BitVec.toNat_append, BitVec.toNat_append,
    ← Nat.shiftLeft_add_eq_or_of_lt hp, ← Nat.shiftLeft_add_eq_or_of_lt hra, Nat.shiftLeft_eq, Nat.shiftLeft_eq]
  omega

theorem rawWord_eq_packWord (op ra hi lo : Byte) : rawWord op ra hi lo = packWord op ra (hi ++ lo) := by
  rw [packWord_eq_append, rawWord, BitVec.append_assoc]
  rfl

/-- The fields of a word give it back. -/
theorem rawWord_fields (w : Word) : rawWord (opField w) (raField w) (rbField w) (rcField w) = w := by
  unfold rawWord opField raField rbField rcField
  rw [BitVec.extractLsb'_append_extractLsb'_eq_extractLsb' (by decide),
    BitVec.extractLsb'_append_extractLsb'_eq_extractLsb' (by decide),
    BitVec.extractLsb'_append_extractLsb'_eq_extractLsb' (by decide)]
  exact BitVec.extractLsb'_eq_self

/-- The payload as a register pair. -/
theorem payloadField_eq_append (w : Word) : payloadField w = rbField w ++ rcField w :=
  (BitVec.extractLsb'_append_extractLsb'_eq_extractLsb' (x := w) (len₁ := 8) (len₂ := 8) (by decide)).symm

theorem packWord_fields (w : Word) : packWord (opField w) (raField w) (payloadField w) = w := by
  rw [payloadField_eq_append, ← rawWord_eq_packWord, rawWord_fields]

@[simp] theorem opField_packWord (op ra : Byte) (p : BitVec 16) : opField (packWord op ra p) = op :=
  Laws.CanonicalWord.packWord_opField op ra p

@[simp] theorem raField_packWord (op ra : Byte) (p : BitVec 16) : raField (packWord op ra p) = ra := by
  rw [packWord_eq_append, raField, BitVec.extractLsb'_append_eq_of_le (by decide)]
  exact BitVec.extractLsb'_append_eq_right

@[simp] theorem payloadField_packWord (op ra : Byte) (p : BitVec 16) : payloadField (packWord op ra p) = p := by
  rw [packWord_eq_append, payloadField]
  exact BitVec.extractLsb'_append_eq_right

theorem packPair_eq_append (rb rc : Reg) : packPair rb rc = rb.index ++ rc.index := by
  cases rb with
  | pc | a | b | c | d | e | f | g => cases rc with
    | pc | a | b | c | d | e | f | g => rfl

/-- Canonical words of the three-register format, by their fields. -/
theorem packWord_packPair (op : Byte) (ra rb rc : Reg) :
    packWord op ra.index (packPair rb rc) = rawWord op ra.index rb.index rc.index := by
  rw [packPair_eq_append, rawWord_eq_packWord]

/-! ## Payloads (rules R56, R90, R111) -/

@[simp] theorem payloadOf_sext32 (p : BitVec 16) : payloadOf (sext32 p) = p := by
  apply BitVec.eq_of_getLsbD_eq
  intro k hk
  simp [payloadOf, sext32, BitVec.getLsbD_signExtend, hk]
  omega

@[simp] theorem payloadOf_zext32 (p : BitVec 16) : payloadOf (zext32 p) = p := by
  simp [payloadOf, zext32]

theorem immediateInRange_sext32 (p : BitVec 16) : immediateInRange (sext32 p) = true := by
  have hlo := p.le_toInt
  have hhi := p.toInt_lt
  simp only [immediateInRange, toInt_sext32, Bool.and_eq_true, decide_eq_true_eq]
  omega

theorem targetInRange_zext32 (p : BitVec 16) : targetInRange (zext32 p) = true := by
  have hp := p.isLt
  simp only [targetInRange, zext32_eq_setWidth, BitVec.toNat_setWidth, decide_eq_true_eq]
  omega

theorem sext32_payloadOf {v : Word} (h : immediateInRange v = true) : sext32 (payloadOf v) = v := by
  simp only [immediateInRange, Bool.and_eq_true, decide_eq_true_eq] at h
  apply BitVec.eq_of_toInt_eq
  rw [toInt_sext32, payloadOf, BitVec.toInt_setWidth, Int.bmod_def]
  rw [BitVec.toInt_eq_toNat_cond] at *
  split at h <;> split <;> omega

theorem zext32_payloadOf {t : Word} (h : targetInRange t = true) : zext32 (payloadOf t) = t := by
  simp only [targetInRange, decide_eq_true_eq] at h
  apply BitVec.eq_of_toNat_eq
  simp only [zext32, payloadOf, BitVec.toNat_setWidth]
  omega

/-! ## Legal register fields (rule R55) -/

theorem Reg.ofField_eq_some_iff (v : Byte) (r : Reg) : Reg.ofField v = some r ↔ v = r.index := by
  constructor
  · intro h
    apply BitVec.eq_of_toNat_eq
    unfold Reg.ofField at h
    split at h
    all_goals cases h
    all_goals assumption
  · rintro rfl
    exact Reg.ofField_index r

theorem decodeReg_eq_instr_iff (w : Word) (mk : Reg → Instr) (i : Instr) :
    decodeReg w mk = .instr i ↔ ∃ r, raField w = r.index ∧ i = mk r := by
  simp only [← Reg.ofField_eq_some_iff, decodeReg]
  cases Reg.ofField (raField w) <;> simp [eq_comm]

theorem decodeRegs_eq_instr_iff (w : Word) (mk : Reg → Reg → Reg → Instr) (i : Instr) :
    decodeRegs w mk = .instr i ↔
      ∃ r1 r2 r3, raField w = r1.index ∧ rbField w = r2.index ∧ rcField w = r3.index ∧ i = mk r1 r2 r3 := by
  simp only [← Reg.ofField_eq_some_iff, decodeRegs]
  cases Reg.ofField (raField w) <;> cases Reg.ofField (rbField w) <;> cases Reg.ofField (rcField w) <;> simp [eq_comm]

/-! ## The rows of the opcode table (rules R54, R61) -/

/-- The row of the word `w` names the instruction: its opcode, and the fields that the row's format reads. -/
inductive RowOf (w : Word) : Instr → Prop
  | halt (hop : opField w = 0#8) : RowOf w .halt
  | load (r : Reg) (hop : opField w = 1#8) (hra : raField w = r.index) : RowOf w (.load r (sext32 (payloadField w)))
  | store (hop : opField w = 2#8) : RowOf w .store
  | inc (r : Reg) (hop : opField w = 3#8) (hra : raField w = r.index) : RowOf w (.inc r)
  | dec (r : Reg) (hop : opField w = 4#8) (hra : raField w = r.index) : RowOf w (.dec r)
  | add (r1 r2 r3 : Reg) (hop : opField w = 5#8) (hra : raField w = r1.index) (hrb : rbField w = r2.index)
      (hrc : rcField w = r3.index) : RowOf w (.add r1 r2 r3)
  | sub (r1 r2 r3 : Reg) (hop : opField w = 6#8) (hra : raField w = r1.index) (hrb : rbField w = r2.index)
      (hrc : rcField w = r3.index) : RowOf w (.sub r1 r2 r3)
  | mul (r1 r2 r3 : Reg) (hop : opField w = 7#8) (hra : raField w = r1.index) (hrb : rbField w = r2.index)
      (hrc : rcField w = r3.index) : RowOf w (.mul r1 r2 r3)
  | div (r1 r2 r3 : Reg) (hop : opField w = 8#8) (hra : raField w = r1.index) (hrb : rbField w = r2.index)
      (hrc : rcField w = r3.index) : RowOf w (.div r1 r2 r3)
  | and (r1 r2 r3 : Reg) (hop : opField w = 9#8) (hra : raField w = r1.index) (hrb : rbField w = r2.index)
      (hrc : rcField w = r3.index) : RowOf w (.and r1 r2 r3)
  | jump (hop : opField w = 10#8) : RowOf w (.jump (zext32 (payloadField w)))
  | jumpIfZero (r : Reg) (hop : opField w = 11#8) (hra : raField w = r.index) :
      RowOf w (.jumpIfZero r (zext32 (payloadField w)))

theorem decode_opcode_zero {w : Word} (h : opField w = 0#8) : decode w = .instr .halt := by
  unfold decode
  rw [h]
  rfl

theorem decode_opcode_eight {w : Word} (h : opField w = 8#8) : decode w = decodeRegs w .div := by
  unfold decode
  rw [h]
  rfl

theorem RowOf.opField_eq {w : Word} {i : Instr} (h : RowOf w i) : opField w = i.opcode := by
  cases h with
  | halt hop | load _ hop | store hop | inc _ hop | dec _ hop | add _ _ _ hop | sub _ _ _ hop | mul _ _ _ hop
  | div _ _ _ hop | and _ _ _ hop | jump hop | jumpIfZero _ hop => exact hop

theorem RowOf.of_decodeReg {w : Word} {mk : Reg → Instr} {i : Instr} (hmk : ∀ r, raField w = r.index → RowOf w (mk r))
    (h : decodeReg w mk = .instr i) : RowOf w i := by
  obtain ⟨r, hra, rfl⟩ := (decodeReg_eq_instr_iff w mk i).1 h
  exact hmk r hra

theorem RowOf.of_decodeRegs {w : Word} {mk : Reg → Reg → Reg → Instr} {i : Instr}
    (hmk : ∀ r1 r2 r3, raField w = r1.index → rbField w = r2.index → rcField w = r3.index → RowOf w (mk r1 r2 r3))
    (h : decodeRegs w mk = .instr i) : RowOf w i := by
  obtain ⟨r1, r2, r3, hra, hrb, hrc, rfl⟩ := (decodeRegs_eq_instr_iff w mk i).1 h
  exact hmk r1 r2 r3 hra hrb hrc

theorem RowOf.of_decode {w : Word} {i : Instr} (h : decode w = .instr i) : RowOf w i := by
  unfold decode at h
  split at h
  case h_1 hop => cases h; exact .halt (BitVec.eq_of_toNat_eq hop)
  case h_2 hop => exact .of_decodeReg (fun r => .load r (BitVec.eq_of_toNat_eq hop)) h
  case h_3 => cases h
  case h_4 hop => exact .of_decodeReg (fun r => .inc r (BitVec.eq_of_toNat_eq hop)) h
  case h_5 hop => exact .of_decodeReg (fun r => .dec r (BitVec.eq_of_toNat_eq hop)) h
  case h_6 hop => exact .of_decodeRegs (fun r1 r2 r3 => .add r1 r2 r3 (BitVec.eq_of_toNat_eq hop)) h
  case h_7 hop => exact .of_decodeRegs (fun r1 r2 r3 => .sub r1 r2 r3 (BitVec.eq_of_toNat_eq hop)) h
  case h_8 hop => exact .of_decodeRegs (fun r1 r2 r3 => .mul r1 r2 r3 (BitVec.eq_of_toNat_eq hop)) h
  case h_9 hop => exact .of_decodeRegs (fun r1 r2 r3 => .div r1 r2 r3 (BitVec.eq_of_toNat_eq hop)) h
  case h_10 hop => exact .of_decodeRegs (fun r1 r2 r3 => .and r1 r2 r3 (BitVec.eq_of_toNat_eq hop)) h
  case h_11 hop => cases h; exact .jump (BitVec.eq_of_toNat_eq hop)
  case h_12 hop => exact .of_decodeReg (fun r => .jumpIfZero r (BitVec.eq_of_toNat_eq hop)) h
  case h_13 => cases h

/-- The decoder never answers Store (rule R61). -/
theorem decode_ne_store (w : Word) : decode w ≠ .instr .store := by
  intro h
  cases RowOf.of_decode h with
  | store hop => rw [decode_opcode_two hop] at h; cases h

theorem RowOf.decode {w : Word} {i : Instr} (h : RowOf w i) (hi : i ≠ .store) : decode w = .instr i := by
  cases h with
  | halt hop => exact decode_opcode_zero hop
  | store => exact absurd rfl hi
  | jump hop => exact decode_opcode_ten hop
  | load r hop hra => rw [decode_opcode_one hop, decodeReg_of_raField_eq_index hra]
  | inc r hop hra => rw [decode_opcode_three hop, decodeReg_of_raField_eq_index hra]
  | dec r hop hra => rw [decode_opcode_four hop, decodeReg_of_raField_eq_index hra]
  | jumpIfZero r hop hra => rw [decode_opcode_eleven hop, decodeReg_of_raField_eq_index hra]
  | add r1 r2 r3 hop hra hrb hrc => rw [decode_opcode_five hop, decodeRegs_of_fields_eq_index hra hrb hrc]
  | sub r1 r2 r3 hop hra hrb hrc => rw [decode_opcode_six hop, decodeRegs_of_fields_eq_index hra hrb hrc]
  | mul r1 r2 r3 hop hra hrb hrc => rw [decode_opcode_seven hop, decodeRegs_of_fields_eq_index hra hrb hrc]
  | div r1 r2 r3 hop hra hrb hrc => rw [decode_opcode_eight hop, decodeRegs_of_fields_eq_index hra hrb hrc]
  | and r1 r2 r3 hop hra hrb hrc => rw [decode_opcode_nine hop, decodeRegs_of_fields_eq_index hra hrb hrc]

theorem decode_eq_instr_iff (w : Word) (i : Instr) : Sys2Proof.decode w = .instr i ↔ RowOf w i ∧ i ≠ .store :=
  ⟨fun h => ⟨.of_decode h, fun hi => decode_ne_store w (hi ▸ h)⟩, fun ⟨h, hi⟩ => h.decode hi⟩

theorem readRow_of_opField_eq_two {w : Word} (h : opField w = 2#8) : readRow w = .instr .store := if_pos h

theorem readRow_of_opField_ne_two {w : Word} (h : opField w ≠ 2#8) : readRow w = Sys2Proof.decode w := if_neg h

theorem Instr.opcode_eq_two_iff (i : Instr) : i.opcode = 2#8 ↔ i = .store := by
  cases i with
  | halt | load | store | inc | dec | add | sub | mul | div | and | jump | jumpIfZero => simp [Instr.opcode]

theorem readRow_eq_instr_iff (w : Word) (i : Instr) : readRow w = .instr i ↔ RowOf w i := by
  by_cases hop : opField w = 2#8
  · rw [readRow_of_opField_eq_two hop]
    constructor
    · rintro ⟨⟩
      exact .store hop
    · intro h
      rw [(Instr.opcode_eq_two_iff i).1 (h.opField_eq.symm.trans hop)]
  · rw [readRow_of_opField_ne_two hop, decode_eq_instr_iff, and_iff_left_iff_imp]
    rintro h rfl
    exact hop h.opField_eq

/-! ## The canonical word (rule R57) -/

/-- The canonical word of a three-register row, for the row's own constructor. -/
theorem rowOf_packPair {op : Byte} {r1 r2 r3 : Reg} {i : Instr}
    (hrow : ∀ {w : Word}, opField w = op → raField w = r1.index → rbField w = r2.index → rcField w = r3.index → RowOf w i) :
    RowOf (packWord op r1.index (packPair r2 r3)) i := by
  rw [packWord_packPair]
  exact hrow (opField_rawWord _ _ _ _) (raField_rawWord _ _ _ _) (rbField_rawWord _ _ _ _) (rcField_rawWord _ _ _ _)

theorem rowOf_encode {i : Instr} (h : i.wellFormed = true) : RowOf (encode i) i := by
  cases i with
  | halt => exact .halt (opField_packWord _ _ _)
  | load r v =>
    have hrow : RowOf (encode (.load r v)) _ := .load r (opField_packWord _ _ _) (raField_packWord _ _ _)
    rwa [encode, payloadField_packWord, sext32_payloadOf h] at hrow
  | store => exact .store (opField_packWord _ _ _)
  | inc r => exact .inc r (opField_packWord _ _ _) (raField_packWord _ _ _)
  | dec r => exact .dec r (opField_packWord _ _ _) (raField_packWord _ _ _)
  | add r1 r2 r3 => exact rowOf_packPair (.add r1 r2 r3)
  | sub r1 r2 r3 => exact rowOf_packPair (.sub r1 r2 r3)
  | mul r1 r2 r3 => exact rowOf_packPair (.mul r1 r2 r3)
  | div r1 r2 r3 => exact rowOf_packPair (.div r1 r2 r3)
  | and r1 r2 r3 => exact rowOf_packPair (.and r1 r2 r3)
  | jump t =>
    have hrow : RowOf (encode (.jump t)) _ := .jump (opField_packWord _ _ _)
    rwa [encode, payloadField_packWord, zext32_payloadOf h] at hrow
  | jumpIfZero r t =>
    have hrow : RowOf (encode (.jumpIfZero r t)) _ := .jumpIfZero r (opField_packWord _ _ _) (raField_packWord _ _ _)
    rwa [encode, payloadField_packWord, zext32_payloadOf h] at hrow

/-- Settles O42: the canonical word has the instruction's row, and the decoder answers by the row but for Store. -/
theorem decodeEncodeRoundTrip : Obligations.DecodeEncodeRoundTrip := by
  intro i hwf
  have hrow := rowOf_encode hwf
  refine ⟨(readRow_eq_instr_iff _ _).2 hrow, ?_⟩
  split
  case isTrue hi =>
    subst hi
    exact decode_opcode_two hrow.opField_eq
  case isFalse hi => exact hrow.decode hi

/-! ## The bits that a format reads (rules R52, R57) -/

theorem packWord_and_packWord (op ra op' ra' : Byte) (p p' : BitVec 16) :
    packWord op ra p &&& packWord op' ra' p' = packWord (op &&& op') (ra &&& ra') (p &&& p') := by
  rw [packWord_eq_append, packWord_eq_append, packWord_eq_append, BitVec.and_append, BitVec.and_append]

theorem and_packWord (w : Word) (op ra : Byte) (p : BitVec 16) :
    w &&& packWord op ra p = packWord (opField w &&& op) (raField w &&& ra) (payloadField w &&& p) := by
  rw [← packWord_and_packWord, packWord_fields]

/-- Format N. -/
theorem and_opcode_mask (w : Word) : w &&& 0xFF000000 = packWord (opField w) 0 0 := by
  rw [show (0xFF000000 : Word) = packWord (BitVec.allOnes 8) 0#8 0#16 by decide, and_packWord]
  simp only [BitVec.and_allOnes, BitVec.and_zero, BitVec.ofNat_eq_ofNat]

/-- Format R. -/
theorem and_register_mask (w : Word) : w &&& 0xFFFF0000 = packWord (opField w) (raField w) 0 := by
  rw [show (0xFFFF0000 : Word) = packWord (BitVec.allOnes 8) (BitVec.allOnes 8) 0#16 by decide, and_packWord]
  simp only [BitVec.and_allOnes, BitVec.and_zero, BitVec.ofNat_eq_ofNat]

/-- Format J. -/
theorem and_target_mask (w : Word) : w &&& 0xFF00FFFF = packWord (opField w) 0 (payloadField w) := by
  rw [show (0xFF00FFFF : Word) = packWord (BitVec.allOnes 8) 0#8 (BitVec.allOnes 16) by decide, and_packWord]
  simp only [BitVec.and_allOnes, BitVec.and_zero, BitVec.ofNat_eq_ofNat]

/-- Formats RI, RJ and RRR. -/
theorem and_full_mask (w : Word) : w &&& 0xFFFFFFFF = w := BitVec.and_allOnes

theorem packWord_payloadField {w : Word} {op ra : Byte} (hop : opField w = op) (hra : raField w = ra) :
    packWord op ra (payloadField w) = w := by
  rw [← hop, ← hra, packWord_fields]

theorem packWord_packPair_of_fields {w : Word} {op : Byte} {r1 r2 r3 : Reg} (hop : opField w = op)
    (hra : raField w = r1.index) (hrb : rbField w = r2.index) (hrc : rcField w = r3.index) :
    packWord op r1.index (packPair r2 r3) = w := by
  rw [packWord_packPair, ← hop, ← hra, ← hrb, ← hrc, rawWord_fields]

theorem RowOf.wellFormed {w : Word} {i : Instr} (h : RowOf w i) : i.wellFormed = true := by
  cases h with
  | load => exact immediateInRange_sext32 _
  | jump | jumpIfZero => exact targetInRange_zext32 _
  | halt | store | inc | dec | add | sub | mul | div | and => rfl

/-- Clearing the unread bits of a word that has a row gives the canonical word of the instruction. -/
theorem RowOf.encode_eq {w : Word} {i : Instr} (h : RowOf w i) : encode i = w &&& i.readMask := by
  cases h with
  | halt hop => rw [Instr.readMask, and_opcode_mask, hop]; rfl
  | store hop => rw [Instr.readMask, and_opcode_mask, hop]; rfl
  | inc r hop hra => rw [Instr.readMask, and_register_mask, hop, hra]; rfl
  | dec r hop hra => rw [Instr.readMask, and_register_mask, hop, hra]; rfl
  | jump hop => rw [Instr.readMask, and_target_mask, hop, encode, payloadOf_zext32]; rfl
  | load r hop hra =>
    rw [Instr.readMask, and_full_mask, encode, payloadOf_sext32]
    exact packWord_payloadField hop hra
  | jumpIfZero r hop hra =>
    rw [Instr.readMask, and_full_mask, encode, payloadOf_zext32]
    exact packWord_payloadField hop hra
  | add r1 r2 r3 hop hra hrb hrc | sub r1 r2 r3 hop hra hrb hrc | mul r1 r2 r3 hop hra hrb hrc
  | div r1 r2 r3 hop hra hrb hrc | and r1 r2 r3 hop hra hrb hrc =>
    rw [Instr.readMask, and_full_mask]
    exact packWord_packPair_of_fields hop hra hrb hrc

/-- Settles O43: the decoder's answer has a row other than Store's, and a row fixes every bit that its format reads. -/
theorem decodedIsCanonicalUpToUnreadBits : Obligations.DecodedIsCanonicalUpToUnreadBits := by
  refine ⟨fun w i h => ?_, fun w i h => ?_⟩
  · obtain ⟨hrow, hi⟩ := (decode_eq_instr_iff w i).1 h
    exact ⟨hi, (readRow_eq_instr_iff w i).2 hrow⟩
  · have hrow := (readRow_eq_instr_iff w i).1 h
    exact ⟨hrow.wellFormed, hrow.encode_eq⟩

theorem opField_and_readMask (v : Word) (i : Instr) : opField (v &&& i.readMask) = opField v := by
  cases i with
  | halt | store => rw [Instr.readMask, and_opcode_mask, opField_packWord]
  | inc | dec => rw [Instr.readMask, and_register_mask, opField_packWord]
  | jump => rw [Instr.readMask, and_target_mask, opField_packWord]
  | load | jumpIfZero | add | sub | mul | div | and => rw [Instr.readMask, and_full_mask]

theorem raField_and_register_mask (v : Word) : raField (v &&& 0xFFFF0000) = raField v := by
  rw [and_register_mask, raField_packWord]

/-- A row depends on the bits that its format reads alone. -/
theorem RowOf.of_and_readMask {v : Word} {i : Instr} (h : RowOf (v &&& i.readMask) i) : RowOf v i := by
  have hop : opField v = i.opcode := (opField_and_readMask v i).symm.trans h.opField_eq
  cases i with
  | halt => exact .halt hop
  | store => exact .store hop
  | inc r =>
    cases h with
    | inc _ _ hra => exact .inc r hop ((raField_and_register_mask v).symm.trans hra)
  | dec r =>
    cases h with
    | dec _ _ hra => exact .dec r hop ((raField_and_register_mask v).symm.trans hra)
  | jump t =>
    rw [Instr.readMask, and_target_mask] at h
    cases h with
    | jump =>
      rw [payloadField_packWord]
      exact .jump hop
  | load | jumpIfZero | add | sub | mul | div | and => rwa [Instr.readMask, and_full_mask] at h

/-- Words of one row have one answer of the decoder. -/
theorem RowOf.decode_eq {w v : Word} {i : Instr} (hw : RowOf w i) (hv : RowOf v i) :
    Sys2Proof.decode v = Sys2Proof.decode w := by
  by_cases hi : i = .store
  · subst hi
    rw [decode_opcode_two hv.opField_eq, decode_opcode_two hw.opField_eq]
  · rw [hv.decode hi, hw.decode hi]

/-- Settles O44: both words have the canonical word of the instruction on the bits its format reads. -/
theorem unreadBitsAreIgnored : Obligations.UnreadBitsAreIgnored := by
  intro w v i h hagree
  have hw := (readRow_eq_instr_iff w i).1 h
  have hcanonical : encode i = v &&& i.readMask := hw.encode_eq.trans hagree
  have hv : RowOf v i := .of_and_readMask (hcanonical ▸ rowOf_encode hw.wellFormed)
  exact ⟨(readRow_eq_instr_iff v i).2 hv, hw.decode_eq hv⟩

/-! ## Which words are rejected (rules R58, R59, R61) -/

theorem decode_eq_undefinedOpcode_iff (w : Word) :
    decode w = .undefinedOpcode ↔ opField w = 2#8 ∨ 12 ≤ (opField w).toNat := by
  refine ⟨fun h => ?_, decode_of_undefined_opcode⟩
  rcases opcode_cases (opField w) with hop | hop | ⟨lo, hi⟩ | hop
  · obtain ⟨i, hd⟩ := decode_of_no_register hop
    rw [hd] at h
    cases h
  · obtain ⟨mk, hd⟩ := decode_of_one_register hop
    rw [hd, decodeReg] at h
    split at h <;> cases h
  · obtain ⟨mk, hd⟩ := decode_of_three_registers lo hi
    rw [hd, decodeRegs] at h
    split at h <;> cases h
  · exact hop

theorem readRow_eq_store_iff (w : Word) : readRow w = .instr .store ↔ opField w = 2#8 := by
  rw [readRow_eq_instr_iff]
  exact ⟨RowOf.opField_eq, .store⟩

/-- Settles O45: each rejection by the fields it depends on. -/
theorem decoderRejectsByName : Obligations.DecoderRejectsByName := by
  intro op ra hi lo
  have hundefined := decode_eq_undefinedOpcode_iff (rawWord op ra hi lo)
  have hstore := readRow_eq_store_iff (rawWord op ra hi lo)
  have hillegal := decode_eq_illegalRegister_iff (rawWord op ra hi lo)
  simp only [opField_rawWord, raField_rawWord, rbField_rawWord, rcField_rawWord] at hundefined hstore hillegal
  exact ⟨hundefined, hstore, hillegal⟩

/-- Settles O46: fixed words of the spec, run through the decoder. -/
theorem specWordsDecode : Obligations.SpecWordsDecode := by
  unfold Obligations.SpecWordsDecode
  decide

end Sys2Proof
end

section
/-! PROOF. The ends of a cycle, said once, and what follows from them: each terminal status with its one cause, precise
faults, and the program counter (rules R72 to R78, R110, R113, R131 to R134, R138, R139). -/

namespace Sys2Proof.Machine

open Sys2Proof.Claims

/-! ## The ends of a cycle -/

/-- How a cycle that starts in the Running state `s` can end in `t`: one way for each terminal status, and the ways that stay
Running together. -/
inductive CycleEnds (s t : State) : Prop
  | outOfBounds (hw : s.fetchWord = none) (ht : t = s.beginCycle.setStatus (.faulted .outOfBounds))
  | halted (w : Word) (hf : Fetches s w) (hd : decode w = .instr .halt) (ht : t = s.afterFetch.setStatus .halted)
  | undefinedOpcode (w : Word) (hf : Fetches s w) (hd : decode w = .undefinedOpcode)
      (ht : t = s.afterFetch.setStatus (.faulted .undefinedOpcode))
  | illegalRegister (w : Word) (hf : Fetches s w) (hd : decode w = .illegalRegister)
      (ht : t = s.afterFetch.setStatus (.faulted .illegalRegister))
  | divisionByZero (w : Word) (ra rb rc : Reg) (hf : Fetches s w) (hd : decode w = .instr (.div ra rb rc))
      (hz : fetched s rb = 0#32) (ht : t = s.afterFetch.setStatus (.faulted .divisionByZero))
  | running (w : Word) (i : Instr) (hf : Fetches s w) (hd : decode w = .instr i) (hhalt : i ≠ .halt)
      (hdiv : ∀ ra rb rc, i = .div ra rb rc → fetched s rb ≠ 0#32) (hexec : exec i s.afterFetch = .next t)
      (hrun : t.status = .running)

/-- A handler that neither halts nor divides by zero leaves the status alone; Store is no answer of the decoder. -/
theorem exec_status_eq {i : Instr} {s t : State} (h : exec i s = .next t) (hhalt : i ≠ .halt) (hstore : i ≠ .store)
    (hdiv : ∀ ra rb rc, i = .div ra rb rc → s.readReg rb ≠ 0#32) : t.status = s.status := by
  rcases exec_next_cases h with ⟨hi, _⟩ | ⟨hi, _⟩ | ⟨ra, rb, rc, hi, hz, _⟩ | ⟨rd, v, rfl⟩ | rfl
  · exact absurd hi hhalt
  · exact absurd hi hstore
  · exact absurd hz (hdiv ra rb rc hi)
  · rw [State.writeReg_status]
  · rfl

theorem cycleEnds_of_step {s t : State} (hrun : s.status = .running) (h : step s = .next t) : CycleEnds s t := by
  rcases step_next_cases h with ⟨hterm, _⟩ | ⟨_, hwf, hcycle⟩
  · rw [State.terminal, hrun] at hterm
    cases hterm
  rcases cycle_next_cases hcycle with ⟨hw, ht⟩ | ⟨w, hw, hdx⟩
  · exact .outOfBounds hw ht
  have hf : Fetches s w := ⟨hrun, hwf, hw⟩
  rcases (decodeExecute_next_iff w _ t).1 hdx with ⟨i, hd, hexec⟩ | ⟨hd, ht⟩ | ⟨hd, ht⟩
  · by_cases hhalt : i = .halt
    · subst hhalt
      exact .halted w hf hd ((halt_next_iff _ t).1 hexec)
    by_cases hdiv : ∃ ra rb rc, i = .div ra rb rc ∧ fetched s rb = 0#32
    · obtain ⟨ra, rb, rc, rfl, hz⟩ := hdiv
      rw [exec_div_of_zero (by rwa [State.readReg_afterFetch]), raise_next_iff] at hexec
      exact .divisionByZero w ra rb rc hf hd hz hexec
    · have hdiv' : ∀ ra rb rc, i = .div ra rb rc → fetched s rb ≠ 0#32 :=
        fun ra rb rc hi hz => hdiv ⟨ra, rb, rc, hi, hz⟩
      have hstore : i ≠ .store := fun hi => decode_ne_store w (hi ▸ hd)
      have hst := exec_status_eq hexec hhalt hstore (by simpa only [State.readReg_afterFetch] using hdiv')
      exact .running w i hf hd hhalt hdiv' hexec (by rw [hst, State.afterFetch_status, hrun])
  · exact .undefinedOpcode w hf hd ht
  · exact .illegalRegister w hf hd ht

/-! ## The frame of a cycle -/

theorem CycleEnds.frame {s t : State} (h : CycleEnds s t) :
    t.prog = s.prog ∧ t.valueStack = s.valueStack ∧ t.loadOpen = false := by
  cases h with
  | outOfBounds _ ht | halted _ _ _ ht | undefinedOpcode _ _ _ ht | illegalRegister _ _ _ ht
  | divisionByZero _ _ _ _ _ _ _ ht => exact ht ▸ ⟨rfl, rfl, rfl⟩
  | running _ _ _ _ _ _ hexec => exact exec_frame hexec

/-- Settles O37: a terminal step changes nothing, and a cycle has the frame above. -/
theorem stepKeepsProgramAndStack : Obligations.StepKeepsProgramAndStack := by
  intro s t h
  rcases step_next_cases h with ⟨_, rfl⟩ | ⟨hrun, _⟩
  · exact ⟨rfl, rfl⟩
  · obtain ⟨hprog, hstack, _⟩ := (cycleEnds_of_step hrun h).frame
    exact ⟨hprog, hstack⟩

theorem decodeExecute_completes (w : Word) (s : State) : ∃ t, decodeExecute w s = .next t := by
  unfold decodeExecute
  split
  · exact exec_completes _ s
  · exact ⟨_, rfl⟩
  · exact ⟨_, rfl⟩

theorem step_completes {s : State} (hwf : s.prog.wf = true) : ∃ t, step s = .next t := by
  cases hst : s.status with
  | halted | faulted => exact ⟨s, by rw [step, hst]⟩
  | running =>
    rw [step_running hst hwf]
    cases hw : s.fetchWord with
    | none => exact ⟨_, cycle_of_none hw⟩
    | some w =>
      rw [cycle_of_some hw]
      exact decodeExecute_completes w _

/-- Settles O34: every outcome of the fetch and of the decoder, and every handler, answers a next state. -/
theorem runningAlwaysSteps : Obligations.RunningAlwaysSteps := by
  intro s hrun hwf
  obtain ⟨t, ht⟩ := step_completes hwf
  obtain ⟨_, _, hopen⟩ := (cycleEnds_of_step hrun ht).frame
  exact ⟨t, ht, hopen⟩

/-- Settles O31: a word with a row takes the meaning that the row names, in the state after the fetch. -/
theorem stepRunsDecodedInstruction : Obligations.StepRunsDecodedInstruction := by
  intro s w i hf hi
  have hrow : readRow w = .instr i := by
    rcases hi with hd | hrow
    · exact (readRow_eq_instr_iff w i).2 (.of_decode hd)
    · exact hrow
  refine ⟨?_, s.readReg_afterFetch, s.afterFetch_status, s.afterFetch_prog, s.afterFetch_valueStack, s.afterFetch_loadOpen⟩
  rw [step_of_fetches hf, decodeExecute_of_readRow hrow]

/-! ## Statuses and their causes -/

/-- Settles O29: the way a cycle ends fixes the status, what was fetched, and what the decoder made of it. -/
theorem statusAfterCycleNamesItsCause : Obligations.StatusAfterCycleNamesItsCause := by
  intro s t hrun h
  cases cycleEnds_of_step hrun h with
  | outOfBounds hw ht => simp [ht, hw]
  | halted w hf hd ht | undefinedOpcode w hf hd ht | illegalRegister w hf hd ht =>
    obtain ⟨_, _, hw⟩ := hf
    simp [ht, hw, hd]
  | divisionByZero w ra rb rc hf hd hz ht =>
    obtain ⟨_, _, hw⟩ := hf
    simp [ht, hw, hd, hz]
  | running w i hf hd hhalt hdiv hexec hst =>
    obtain ⟨_, _, hw⟩ := hf
    simpa [hst, hw, hd, hhalt] using hdiv

/-! ## Precise faults -/

/-- After a fetch the word before slot 0 is the one fetched (rule R139). -/
theorem State.lastFetched_afterFetch {s : State} {w : Word} (h : Fetches s w) : s.afterFetch.lastFetched = some w := by
  have ⟨_, hwf, hw⟩ := h
  rw [State.lastFetched, State.signed_pc_afterFetch hw hwf, Int.add_sub_cancel, State.afterFetch_prog]
  exact hw

/-- A status change reads the same words before slot 0. -/
@[simp] theorem State.lastFetched_setStatus (s : State) (st : Status) : (s.setStatus st).lastFetched = s.lastFetched := rfl

theorem readReg_afterFetch_setStatus_ne (s : State) (st : Status) {r : Reg} (h : r ≠ .pc) :
    (s.afterFetch.setStatus st).readReg r = s.readReg r := by
  rw [State.readReg_setStatus, State.readReg_afterFetch_ne s h]

/-- A terminal status after the fetch leaves the increment for its only trace in the registers. -/
theorem precise_of_afterFetch_setStatus {s : State} {w : Word} (h : Fetches s w) (st : Status) :
    ((s.afterFetch.setStatus st).readReg .pc).toInt - 1 = (s.readReg .pc).toInt ∧
      (s.afterFetch.setStatus st).lastFetched = s.fetchWord := by
  have ⟨_, _, hw⟩ := h
  rw [State.readReg_setStatus, toInt_pc_afterFetch_of_fetches h, Int.add_sub_cancel, State.lastFetched_setStatus,
    State.lastFetched_afterFetch h, hw]
  exact ⟨rfl, rfl⟩

/-- Settles O30: every fault but OutOfBounds is a status written after the fetch. -/
theorem faultsArePrecise : Obligations.FaultsArePrecise := by
  intro s t c hrun h hc
  have hends := cycleEnds_of_step hrun h
  obtain ⟨hprog, hstack, _⟩ := hends.frame
  cases hends with
  | outOfBounds hw ht =>
    subst ht
    cases hc
    exact ⟨fun _ _ => rfl, hprog, hstack, rfl⟩
  | halted w hf hd ht =>
    subst ht
    cases hc
  | undefinedOpcode w hf hd ht | illegalRegister w hf hd ht | divisionByZero w _ _ _ hf hd hz ht =>
    subst ht
    cases hc
    exact ⟨fun _ hr => readReg_afterFetch_setStatus_ne s _ hr, hprog, hstack, precise_of_afterFetch_setStatus hf _⟩
  | running _ _ _ _ _ _ _ hst =>
    rw [hst] at hc
    cases hc

/-! ## The program counter after a cycle -/

theorem fetched_pc (s : State) : fetched s .pc = s.readReg .pc + 1#32 := if_pos rfl

/-- A terminal status after a fetch keeps the increment. -/
theorem CycleEnds.pc_of_terminal {s t : State} {w : Word} (h : CycleEnds s t) (hf : Fetches s w)
    (hst : t.status ≠ .running) : t.readReg .pc = s.readReg .pc + 1#32 := by
  have ⟨_, _, hw⟩ := hf
  cases h with
  | outOfBounds hnone => rw [hw] at hnone; cases hnone
  | halted _ _ _ ht | undefinedOpcode _ _ _ ht | illegalRegister _ _ _ ht | divisionByZero _ _ _ _ _ _ _ ht =>
    rw [ht, State.readReg_setStatus, State.readReg_afterFetch, fetched_pc]
  | running _ _ _ _ _ _ _ hrun => exact absurd hrun hst

/-- The value that a destination PC takes is the one that the handler writes to slot 0 (rule R113). -/
theorem exec_of_valueForPc {i : Instr} {s : State} {v : Word} (h : valueForPc s.readReg i = some v) :
    exec i s = writeResult .pc v s := by
  cases i with
  | halt | store | jump | jumpIfZero => cases h
  | load ra _ =>
    obtain ⟨rfl, ⟨⟩⟩ := Option.ite_none_right_eq_some.1 h
    rfl
  | inc ra =>
    obtain ⟨rfl, ⟨⟩⟩ := Option.ite_none_right_eq_some.1 h
    rw [← aluInc_eq_add]
    rfl
  | dec ra =>
    obtain ⟨rfl, ⟨⟩⟩ := Option.ite_none_right_eq_some.1 h
    rw [← aluDec_eq_sub]
    rfl
  | add ra rb rc =>
    obtain ⟨rfl, ⟨⟩⟩ := Option.ite_none_right_eq_some.1 h
    rw [← aluAdd_eq_add]
    rfl
  | sub ra rb rc =>
    obtain ⟨rfl, ⟨⟩⟩ := Option.ite_none_right_eq_some.1 h
    rw [← aluSub_eq_sub]
    rfl
  | mul ra rb rc =>
    obtain ⟨rfl, ⟨⟩⟩ := Option.ite_none_right_eq_some.1 h
    rw [← aluMul_eq_mul]
    rfl
  | div ra rb rc =>
    obtain ⟨⟨rfl, hnz⟩, ⟨⟩⟩ := Option.ite_none_right_eq_some.1 h
    exact exec_div_of_ne_zero hnz
  | and ra rb rc =>
    obtain ⟨rfl, ⟨⟩⟩ := Option.ite_none_right_eq_some.1 h
    rw [← aluAnd_eq_ite]
    rfl

/-- A Running cycle on an instruction that writes `v` to slot 0 leaves `v` there. -/
theorem pc_of_exec_eq_writeResult {s t : State} {w : Word} {i : Instr} {v : Word} (hf : Fetches s w)
    (h : step s = .next t) (hd : decode w = .instr i) (hexec : exec i s.afterFetch = writeResult .pc v s.afterFetch) :
    t.status = .running ∧ t.readReg .pc = v := by
  have ⟨hrun, _, _⟩ := hf
  rw [step_of_fetches_instr hf hd, hexec, writeResult_next_iff] at h
  subst h
  exact ⟨hrun, State.readReg_writeReg_same _ _ _⟩

/-- Settles O33: by the ends of a cycle where the status is terminal, by the frame of the handler where slot 0 is no
destination, and by the handler's one write where it is. -/
theorem pcAfterCycle : Obligations.PcAfterCycle := by
  intro s t w hf h
  have ⟨hrun, _, _⟩ := hf
  have hfetched : s.afterFetch.readReg = fetched s := funext s.readReg_afterFetch
  refine ⟨fun hst => (cycleEnds_of_step hrun h).pc_of_terminal hf hst, fun i hd hpc => ?unwritten,
    fun i v hd hv => ?destination, fun target hd => ?jump, fun ra target hd => ?jumpIfZero⟩
  case unwritten =>
    rw [step_of_fetches_instr hf hd] at h
    rw [exec_readReg_of_not_mem_dests h hpc, hfetched, fetched_pc]
  case destination =>
    rw [← hfetched] at hv
    exact pc_of_exec_eq_writeResult hf h hd (exec_of_valueForPc hv)
  case jump =>
    obtain ⟨_, hpc⟩ := pc_of_exec_eq_writeResult hf h hd (exec_jump_eq_writeResult target _)
    exact hpc
  case jumpIfZero =>
    rw [← hfetched]
    split
    case isTrue hz =>
      obtain ⟨_, hpc⟩ := pc_of_exec_eq_writeResult hf h hd (exec_jumpIfZero_of_zero hz)
      exact hpc
    case isFalse hnz =>
      rw [step_of_fetches_instr hf hd, exec_jumpIfZero_of_ne_zero hnz] at h
      cases h
      rw [hfetched, fetched_pc]

end Sys2Proof.Machine
end

section
/-! PROOF. One cycle on a word of opcode 0, Halt, and of opcode 8, Div (rules R84, R103, R110). -/

namespace Sys2Proof.Machine

open Sys2Proof.Claims

/-! ## Halt -/

/-- A status written after the fetch leaves the increment as the only change of a register. -/
theorem stepEnds_of_step_eq_setStatus {s : State} {st : Status} (h : step s = .next (s.afterFetch.setStatus st)) :
    StepEnds s (fetched s) st :=
  ⟨_, h, s.readReg_afterFetch, rfl, rfl, rfl⟩

/-- Settles O14: the decoder reads only the opcode of a Halt word, and no cycle runs in status Halted. -/
theorem haltWordEndsTheRun : Obligations.HaltWordEndsTheRun := by
  intro s ra hi lo hf
  have hstep := step_of_fetches_halt hf (decode_opcode_zero (opField_rawWord 0 ra hi lo))
  refine ⟨stepEnds_of_step_eq_setStatus hstep, fun t ht => ?_⟩
  rw [hstep] at ht
  cases ht
  exact step_terminal rfl

/-! ## Div -/

theorem step_of_fetches_div {s : State} {r1 r2 r3 : Reg}
    (h : Fetches s (rawWord 8 r1.index r2.index r3.index)) : step s = exec (.div r1 r2 r3) s.afterFetch :=
  step_of_fetches_decodeRegs h (decode_opcode_eight (opField_rawWord 8 _ _ _)) (raField_rawWord _ _ _ _)
    (rbField_rawWord _ _ _ _) (rcField_rawWord _ _ _ _)

/-- The divisor field of a word that decodes to Div names the divisor. -/
theorem rbField_of_decode_div {w : Word} {ra rb rc : Reg} (h : decode w = .instr (.div ra rb rc)) :
    rbField w = rb.index := by
  cases RowOf.of_decode h with
  | div _ _ _ _ _ hrb => exact hrb

theorem Reg.index_eq_zero_iff (r : Reg) : r.index = 0#8 ↔ r = .pc := by
  cases r with
  | pc | a | b | c | d | e | f | g => decide

/-- Settles O22: legal fields divide or fault by the divisor after the fetch, an illegal field is the decoder's fault before
any division, and a divisor PC is at least 1 after the fetch. -/
theorem divWordDivides : Obligations.DivWordDivides := by
  intro s ra rb rc hf
  have ⟨hrun, _, hw⟩ := hf
  refine ⟨?legal, fun hbad => ?illegal, ?pc⟩
  case legal =>
    rintro r1 r2 r3 rfl rfl rfl
    have hstep := step_of_fetches_div hf
    split
    case isTrue hz =>
      rw [← State.readReg_afterFetch] at hz
      exact stepEnds_of_step_eq_raise (hstep.trans (exec_div_of_zero hz))
    case isFalse hnz =>
      rw [← State.readReg_afterFetch] at hnz
      rw [exec_div_of_ne_zero hnz, State.readReg_afterFetch, State.readReg_afterFetch] at hstep
      exact stepEnds_of_step_eq_writeResult hrun hstep
  case illegal =>
    apply stepEnds_illegalRegister_of_decodeRegs hf (decode_opcode_eight (opField_rawWord 8 _ _ _))
    rwa [raField_rawWord, rbField_rawWord, rcField_rawWord]
  case pc =>
    rintro rfl t ht hst
    obtain ⟨_, _, _, _, hdiv⟩ := statusAfterCycleNamesItsCause s t hrun ht
    obtain ⟨w, ra', rb', rc', hw', hd, hz⟩ := hdiv.1 hst
    obtain rfl : rawWord 8 ra 0 rc = w := Option.some.inj (hw.symm.trans hw')
    have hrb := rbField_of_decode_div hd
    rw [rbField_rawWord] at hrb
    rw [(Reg.index_eq_zero_iff rb').1 hrb.symm] at hz
    exact fetched_pc_ne_zero hf hz

end Sys2Proof.Machine
end

section
/-! PROOF. The invariant of the machine: at reset, kept by every step and every host operation, and so in every reachable
state; and what it says of terminal states (rules R71, R120 to R124, R139, R140). -/

namespace Sys2Proof.Machine

/-! ## The invariant is kept -/

/-- Settles O39: the empty Program Store is legal, the status is Running, and the window is open on reset itself. -/
theorem resetHasInvariant : Obligations.ResetHasInvariant :=
  ⟨State.reset_prog_wf, State.reset_valueStack, trivial, fun _ => rfl⟩

/-- A terminal status that a cycle ends in is explained by what the cycle fetched (rule R139). -/
theorem CycleEnds.explained {s t : State} (h : CycleEnds s t) : t.statusExplained := by
  cases h with
  | outOfBounds hw ht =>
    subst ht
    exact hw
  | halted w hf hd ht | undefinedOpcode w hf hd ht | illegalRegister w hf hd ht =>
    subst ht
    exact ⟨w, State.lastFetched_afterFetch hf, hd⟩
  | divisionByZero w ra rb rc hf hd hz ht =>
    subst ht
    exact ⟨w, ra, rb, rc, State.lastFetched_afterFetch hf, hd, (s.readReg_afterFetch rb).trans hz⟩
  | running _ _ _ _ _ _ _ hrun =>
    unfold State.statusExplained
    rw [hrun]
    trivial

/-- Settles O38: a terminal step answers the same state; a cycle keeps the store and the stack, explains the status it ends
in, and closes the load window. -/
theorem stepKeepsInvariant : Obligations.StepKeepsInvariant := by
  intro s t hinv h
  rcases step_next_cases h with ⟨_, rfl⟩ | ⟨hrun, hwf, _⟩
  · exact hinv
  have hends := cycleEnds_of_step hrun h
  obtain ⟨hprog, hstack, hopen⟩ := hends.frame
  exact {
    progWf := hprog ▸ hwf
    valueStackEmpty := hstack.trans hinv.valueStackEmpty
    explained := hends.explained
    loadWindow := fun ht => absurd ht (by simp [hopen]) }

theorem inv_of_load {p : Memory} {s t : State} (hinv : s.Inv) (h : load p s = .next t) : t.Inv := by
  obtain ⟨hopen, hp, rfl⟩ := (load_next_iff p s t).1 h
  obtain rfl := hinv.loadWindow hopen
  exact ⟨hp, rfl, trivial, nofun⟩

theorem inv_of_apply {o : HostOp} {s t : State} (hinv : s.Inv) (h : o.apply s = .next t) : t.Inv := by
  cases o with
  | create =>
    cases h
    exact resetHasInvariant
  | load p => exact inv_of_load hinv h
  | step => exact stepKeepsInvariant s t hinv h
  | readRegister r =>
    cases h
    exact hinv

theorem Reachable.inv {s : State} (h : Reachable s) : s.Inv := by
  induction h with
  | created s => exact resetHasInvariant
  | operated o s t _ hop ih => exact inv_of_apply ih hop

/-- Settles O40: every host operation keeps the invariant, and a legal Program Store is all that a step needs. -/
theorem reachableStatesAreSound : Obligations.ReachableStatesAreSound := fun _ h =>
  ⟨h.inv, step_completes h.inv.progWf⟩

/-! ## Terminal states -/

theorem runFor_terminal {s : State} (h : s.terminal = true) (k : Nat) : runFor k s = .next s := by
  cases k with
  | zero => rfl
  | succ k =>
    cases hst : s.status with
    | running => simp [State.terminal, hst] at h
    | halted | faulted => rw [runFor, hst]

/-- With the load window open the machine is as reset left it, Running (rule R121). -/
theorem loadOpen_of_terminal {s : State} (hinv : s.Inv) (h : s.terminal = true) : s.loadOpen = false := by
  by_contra hopen
  obtain rfl := hinv.loadWindow (Bool.eq_true_of_not_eq_false hopen)
  cases h

/-- Settles O41: by the host operation; `load` is refused because its window is closed. -/
theorem terminalLeftOnlyByCreate : Obligations.TerminalLeftOnlyByCreate := by
  intro s hinv hterm
  refine ⟨runFor_terminal hterm, fun o t h => ?_⟩
  cases o with
  | create =>
    cases h
    exact .inr ⟨rfl, rfl⟩
  | load p =>
    obtain ⟨hopen, _, _⟩ := (load_next_iff p s t).1 h
    rw [loadOpen_of_terminal hinv hterm] at hopen
    cases hopen
  | step =>
    left
    have hstep := step_terminal hterm
    exact (Host.Outcome.next.inj (hstep.symm.trans h)).symm
  | readRegister r =>
    cases h
    exact .inl rfl

end Sys2Proof.Machine
end

section
/-! PROOF. The ALU's addition, multiplication and division in Lean's own arithmetic (rules R83, R84, R86). -/

namespace Sys2Proof.Machine

/-! ## Addition and multiplication, on either reading -/

theorem aluAdd_eq_ofInt (a b : Word) : aluAdd a b = BitVec.ofInt 32 (a.toInt + b.toInt) := by
  rw [aluAdd, wrap32_eq_ofInt, signed_eq_toInt, signed_eq_toInt]

theorem aluMul_eq_ofInt (a b : Word) : aluMul a b = BitVec.ofInt 32 (a.toInt * b.toInt) := by
  rw [aluMul, wrap32_eq_ofInt, signed_eq_toInt, signed_eq_toInt]

/-- Settles O47: `alu_add` is bit-vector addition, which both readings give; the examples are computed. -/
theorem aluAddWraps : Obligations.AluAddWraps := by
  refine ⟨fun a b => ⟨aluAdd_eq_ofInt a b, ?_⟩, by decide, by decide, fun a => ?_⟩
  · rw [aluAdd_eq_add, BitVec.toNat_add]
  · rw [aluAdd_eq_add, BitVec.add_zero]

/-- Settles O49: `alu_mul` is bit-vector multiplication, which both readings give; the examples are computed. -/
theorem aluMulKeepsLowHalf : Obligations.AluMulKeepsLowHalf := by
  refine ⟨fun a b => ⟨aluMul_eq_ofInt a b, ?_⟩, by decide, by decide, by decide, by decide, fun a => ?_, fun a => ?_,
    by decide⟩
  · rw [aluMul_eq_mul, BitVec.toNat_mul]
  · rw [aluMul_eq_mul, BitVec.mul_zero]
  · rw [aluMul_eq_mul, BitVec.mul_one]

/-! ## Division -/

theorem natAbs_tdiv_eq (a b : Int) : (tdiv a b).natAbs = a.natAbs / b.natAbs := by
  unfold tdiv
  split
  · exact Int.natAbs_natCast _
  · rw [Int.natAbs_neg, Int.natAbs_natCast]

theorem tdiv_nonneg_of_signs_agree {a b : Int} (h : a < 0 ↔ b < 0) : 0 ≤ tdiv a b := by
  rw [tdiv, if_pos (decide_eq_decide.2 h)]
  exact Int.natCast_nonneg _

theorem tdiv_nonpos_of_signs_differ {a b : Int} (h : ¬ (a < 0 ↔ b < 0)) : tdiv a b ≤ 0 := by
  rw [tdiv, if_neg (mt decide_eq_decide.1 h)]
  exact Int.neg_nonpos_of_nonneg (Int.natCast_nonneg _)

/-- Only -2^31 / -1 leaves the signed range (rule R84): a quotient of magnitude 2^31 that is not negative needs a divisor of
magnitude 1 with the sign of -2^31. -/
theorem tdiv_range {a b : Int} (hlo : -2147483648 ≤ a) (hhi : a ≤ 2147483647)
    (h : ¬ (a = -2147483648 ∧ b = -1)) : -2147483648 ≤ tdiv a b ∧ tdiv a b ≤ 2147483647 := by
  have habs := natAbs_tdiv_eq a b
  have hle : a.natAbs / b.natAbs ≤ a.natAbs := Nat.div_le_self _ _
  by_cases hsigns : a < 0 ↔ b < 0
  · have hnonneg := tdiv_nonneg_of_signs_agree hsigns
    by_cases ha : a = -2147483648
    · have hhalf : a.natAbs / b.natAbs ≤ a.natAbs / 2 := Nat.div_le_div_left (by omega) (by decide)
      omega
    · omega
  · have hnonpos := tdiv_nonpos_of_signs_differ hsigns
    omega

theorem tdiv_toInt_range {a b : Word} (h : ¬ (a = 0x80000000#32 ∧ b = 0xFFFFFFFF#32)) :
    -2147483648 ≤ tdiv a.toInt b.toInt ∧ tdiv a.toInt b.toInt ≤ 2147483647 := by
  obtain ⟨hlo, hhi⟩ := signed_range a
  rw [signed_eq_toInt] at hlo hhi
  refine tdiv_range hlo hhi (fun ⟨ha, hb⟩ => h ⟨?_, ?_⟩)
  · exact BitVec.eq_of_toInt_eq ha
  · exact BitVec.eq_of_toInt_eq hb

/-- Settles O52: outside the one wrapping pair the quotient survives the wrap, and its magnitude and sign are the spec's. -/
theorem aluDivTruncatesTowardZero : Obligations.AluDivTruncatesTowardZero := by
  intro a b
  refine ⟨aluDiv_eq_none_iff a b, ?_, fun hb hpair => ?_⟩
  · rintro rfl rfl
    decide
  · obtain ⟨hlo, hhi⟩ := tdiv_toInt_range hpair
    have hq := signed_wrap32 hlo hhi
    rw [signed_eq_toInt] at hq
    refine ⟨_, aluDiv_of_ne_zero a hb, ?_⟩
    rw [signed_eq_toInt, signed_eq_toInt, hq]
    exact ⟨tdiv_eq_tdiv _ _, natAbs_tdiv_eq _ _, tdiv_nonneg_of_signs_agree, tdiv_nonpos_of_signs_differ⟩

end Sys2Proof.Machine
end

section
/-! PROOF. The host's side: the one legal load, the STATUS codes, the run loop as iterated steps and its end, the word placed
for the next fetch, and the byte image of a program (rules R33, R77, R121 to R124, R135, R147). -/

namespace Sys2Proof.Machine

open Sys2Proof.Claims

/-! ## load -/

theorem load_of_window_closed {s : State} (h : s.loadOpen = false) (p : Memory) : load p s = .refused .loadMisplaced := by
  simp [load, h]

theorem load_of_too_long {s : State} {p : Memory} (hopen : s.loadOpen = true) (hp : p.wf = false) :
    load p s = .refused .programTooLong := by
  simp [load, hopen, hp]

/-- Settles O54: the window, then the length, decide about a load; a load closes the window, and so does a cycle. -/
theorem loadInstallsOnceBeforeFirstCycle : Obligations.LoadInstallsOnceBeforeFirstCycle := by
  intro s p
  refine ⟨fun hopen hlen => ?accepted, fun hopen hlen => ?tooLong, fun hrun t ht => ?late⟩
  case accepted =>
    have hload := (load_next_iff p s _).2 ⟨hopen, (Memory.wf_iff p).2 hlen, rfl⟩
    exact ⟨_, hload, rfl, rfl, fun _ => rfl, rfl, load_of_window_closed rfl⟩
  case tooLong =>
    apply load_of_too_long hopen
    rw [Bool.eq_false_iff, Ne, Memory.wf_iff]
    exact Nat.not_le.2 hlen
  case late =>
    obtain ⟨_, _, hclosed⟩ := (cycleEnds_of_step hrun ht).frame
    exact load_of_window_closed hclosed p

/-! ## The STATUS codes -/

/-- The status that a STATUS code stands for (rule R135); the unused codes 6 and 7 read as the last one. -/
def statusOfCode (c : BitVec 3) : Status :=
  match c.toNat with
  | 0 => .running
  | 1 => .halted
  | 2 => .faulted .outOfBounds
  | 3 => .faulted .divisionByZero
  | 4 => .faulted .undefinedOpcode
  | _ => .faulted .illegalRegister

theorem statusOfCode_code (a : Status) : statusOfCode a.code = a := by
  cases a with
  | running | halted => rfl
  | faulted c => cases c with
    | outOfBounds | divisionByZero | undefinedOpcode | illegalRegister => rfl

theorem Status.code_le_five (a : Status) : a.code.toNat ≤ 5 := by
  cases a with
  | running | halted => decide
  | faulted c => cases c with
    | outOfBounds | divisionByZero | undefinedOpcode | illegalRegister => decide

/-- Settles O57: a code tells its status because the status can be read back from it. -/
theorem statusCodesAreDistinct : Obligations.StatusCodesAreDistinct :=
  ⟨fun _ _ h => (show Function.LeftInverse statusOfCode Status.code from statusOfCode_code).injective h, Status.code_le_five,
    rfl, rfl, rfl, rfl, rfl, rfl⟩

/-! ## run as iterated steps -/

theorem stepTimes_succ_of_step {s t : State} (h : step s = .next t) (k : Nat) : stepTimes (k + 1) s = stepTimes k t := by
  rw [stepTimes, h]

theorem exists_step_of_stepTimes_succ {s t : State} {k : Nat} (h : stepTimes (k + 1) s = .next t) :
    ∃ u, step s = .next u ∧ stepTimes k u = .next t := by
  rw [stepTimes] at h
  split at h
  case h_1 u hu => exact ⟨u, hu, h⟩
  all_goals cases h

theorem stepTimes_terminal {s : State} (h : s.terminal = true) (k : Nat) : stepTimes k s = .next s := by
  induction k with
  | zero => rfl
  | succ k ih => rw [stepTimes_succ_of_step (step_terminal h), ih]

theorem running_or_terminal (s : State) : s.status = .running ∨ s.terminal = true := by
  cases h : s.status with
  | running => exact .inl rfl
  | halted | faulted => exact .inr (by rw [State.terminal, h])

/-- Settles O55: in status Running the loop makes the same step, and in a terminal one both stay. -/
theorem runIsIteratedStep : Obligations.RunIsIteratedStep := by
  intro k
  induction k with
  | zero => exact fun _ => rfl
  | succ k ih =>
    intro s
    rcases running_or_terminal s with hrun | hterm
    · cases h : step s with
      | next t => rw [runFor_succ_of_step hrun h, stepTimes_succ_of_step h, ih]
      | fault f => exact nomatch f
      | refused r => simp only [runFor, stepTimes, hrun, h]
    · rw [runFor_terminal hterm, stepTimes_terminal hterm]

/-! ## The end of a run -/

theorem stepTimes_add {s t : State} {j : Nat} (h : stepTimes j s = .next t) (k : Nat) :
    stepTimes (j + k) s = stepTimes k t := by
  induction j generalizing s with
  | zero =>
    cases h
    rw [Nat.zero_add]
  | succ j ih =>
    obtain ⟨u, hu, hj⟩ := exists_step_of_stepTimes_succ h
    rw [Nat.succ_add, stepTimes_succ_of_step hu, ih hj]

theorem stepTimes_completes {s : State} (hwf : s.prog.wf = true) (k : Nat) : ∃ t, stepTimes k s = .next t := by
  induction k generalizing s with
  | zero => exact ⟨s, rfl⟩
  | succ k ih =>
    obtain ⟨t, ht⟩ := step_completes hwf
    obtain ⟨hprog, _⟩ := stepKeepsProgramAndStack s t ht
    rw [stepTimes_succ_of_step ht]
    exact ih (hprog ▸ hwf)

theorem terminal_of_ne_running {s : State} (h : s.status ≠ .running) : s.terminal = true :=
  (running_or_terminal s).resolve_left h

/-- A run that has returned stays where it is, however many more steps are allowed. -/
theorem stepTimes_of_le {s t : State} {j k : Nat} (hjk : j ≤ k) (h : stepTimes j s = .next t) (ht : t.status ≠ .running) :
    stepTimes k s = .next t := by
  obtain ⟨d, rfl⟩ := Nat.exists_eq_add_of_le hjk
  rw [stepTimes_add h, stepTimes_terminal (terminal_of_ne_running ht)]

theorem runReturns_unique {s t u : State} (ht : RunReturns s t) (hu : RunReturns s u) : t = u := by
  obtain ⟨j, hj, htst⟩ := ht
  obtain ⟨k, hk, hust⟩ := hu
  rw [runIsIteratedStep] at hj hk
  have htmax := stepTimes_of_le (le_max_left j k) hj htst
  have humax := stepTimes_of_le (le_max_right j k) hk hust
  exact Host.Outcome.next.inj (htmax.symm.trans humax)

/-- Settles O56: with a legal Program Store every number of steps ends in a next state, which is terminal for some number or
Running for all. -/
theorem runReturnsOrHangs : Obligations.RunReturnsOrHangs := by
  intro s hwf
  refine ⟨⟨?_, fun hnot => ?_⟩, fun t u => runReturns_unique⟩
  · rintro ⟨t, k, hk, hst⟩ hhangs
    obtain ⟨u, hu, hust⟩ := hhangs k
    rw [hk] at hu
    cases hu
    exact hst hust
  · simp only [Hangs, not_forall, not_exists, not_and] at hnot
    obtain ⟨k, hk⟩ := hnot
    obtain ⟨t, ht⟩ := stepTimes_completes hwf k
    rw [← runIsIteratedStep] at ht
    exact ⟨t, k, ht, hk t ht⟩

/-! ## The word placed for the next fetch -/

theorem State.withFetchWord_toNat (s : State) (w : Word) : s.withFetchWord 32 w.toNat = s.placeNext w := by
  rw [State.withFetchWord, Nat.mod_eq_of_lt w.isLt, BitVec.ofNat_toNat, BitVec.setWidth_eq]

theorem fetches_placeNext (s : State) (w : Word) : Fetches (s.placeNext w) w := by
  unfold State.placeNext
  split
  case isTrue h =>
    obtain ⟨hlo, hhi, hwf⟩ := h
    refine ⟨rfl, Memory.putWord_wf w hwf (by omega), ?_⟩
    exact (Memory.progRead_eq_some_iff _ _ _).2 ⟨hlo, Memory.putWord_get_same _ _ _⟩
  case isFalse => exact ⟨rfl, rfl, rfl⟩

/-- Settles O58: the placed word is fetched, and a fetched word is what the step runs. -/
theorem withFetchWordIsFetchedNext : Obligations.WithFetchWordIsFetchedNext := by
  intro s w
  rw [State.withFetchWord_toNat]
  exact ⟨fetches_placeNext s w, step_of_fetches (fetches_placeNext s w)⟩

/-! ## The byte image -/

theorem wordImage_eq_fields (w : Word) : wordImage w = [rcField w, rbField w, raField w, opField w] := rfl

theorem wordImage_rawWord (op ra hi lo : Byte) : wordImage (rawWord op ra hi lo) = [lo, hi, ra, op] := by
  rw [wordImage_eq_fields, rcField_rawWord, rbField_rawWord, raField_rawWord, opField_rawWord]

theorem zext32_append (hi lo : Byte) : zext32 (hi ++ lo) = (hi.setWidth 32 <<< 8) ||| lo.setWidth 32 := by
  apply BitVec.eq_of_getLsbD_eq
  intro k hk
  have happend : (hi ++ lo : BitVec 16).getLsbD k = if k < 8 then lo.getLsbD k else hi.getLsbD (k - 8) :=
    BitVec.getLsbD_append
  by_cases h : k < 8
  · simp [zext32, happend, h, hk]
  · simp [zext32, happend, h, hk, BitVec.getLsbD_of_ge lo k (by omega)]

theorem wordOfImage_eq_rawWord (b0 b1 b2 b3 : Byte) : wordOfImage b0 b1 b2 b3 = rawWord b3 b2 b1 b0 := by
  rw [rawWord_eq_packWord, packWord, zext32_append, ← BitVec.or_assoc]
  rfl

theorem programOfImage_append_wordImage (w : Word) (bs : List Byte) :
    programOfImage (wordImage w ++ bs) = (programOfImage bs).map (w :: ·) := by
  rw [wordImage_eq_fields, ← rawWord_fields w]
  simp [programOfImage, wordOfImage_eq_rawWord]

theorem programOfImage_programImage (p : Memory) : programOfImage (programImage p) = some p := by
  induction p with
  | nil => rfl
  | cons w rest ih => rw [programImage, programOfImage_append_wordImage, ih, Option.map_some]

theorem programImage_length (p : Memory) : (programImage p).length = 4 * p.plen := by
  induction p with
  | nil => rfl
  | cons w rest ih =>
    rw [programImage, List.length_append, ih, Memory.plen, Memory.plen, List.length_cons, wordImage_eq_fields]
    simp only [List.length_cons, List.length_nil]
    omega

/-- Settles O59: a word is its four bytes, and the image of a program is read back word by word. -/
theorem programImageRoundTrip : Obligations.ProgramImageRoundTrip :=
  ⟨wordImage_rawWord, fun _ _ => rfl, fun p => ⟨programOfImage_programImage p, programImage_length p⟩⟩

end Sys2Proof.Machine
end

section
/-! PROOF. The assembly text of an instruction reads back as that instruction (rule R62): decimal numbers, the cut into
mnemonic and operands, and the operands of each form. -/

namespace Sys2Proof.Machine

/-! ## Decimal numbers -/

theorem digitValue_digitChar {d : Nat} (h : d < 10) : digitValue (digitChar d) = some d := by
  interval_cases d <;> rfl

/-- A digit's character is no blank, no comma and no minus sign. -/
theorem digitChar_plain {d : Nat} (h : d < 10) :
    isBlank (digitChar d) = false ∧ digitChar d ≠ ',' ∧ digitChar d ≠ '-' := by
  interval_cases d <;> decide

theorem exists_digit_of_mem_decimal {k n : Nat} {c : Char} (h : c ∈ decimal k n) : ∃ d, d < 10 ∧ c = digitChar d := by
  induction k generalizing n with
  | zero => cases h
  | succ k ih =>
    rw [decimal] at h
    split at h
    case isTrue hn => exact ⟨n, hn, List.mem_singleton.1 h⟩
    case isFalse =>
      rcases List.mem_append.1 h with hc | hc
      · exact ih hc
      · exact ⟨n % 10, Nat.mod_lt _ (by decide), List.mem_singleton.1 hc⟩

theorem decimal_ne_nil (k n : Nat) : decimal (k + 1) n ≠ [] := by
  rw [decimal]
  split <;> simp

theorem parseDigits_append (acc : Nat) (xs ys : List Char) :
    parseDigits acc (xs ++ ys) = (parseDigits acc xs).bind (fun a => parseDigits a ys) := by
  induction xs generalizing acc with
  | nil => rfl
  | cons c xs ih =>
    rw [List.cons_append, parseDigits, parseDigits]
    cases digitValue c with
    | none => rfl
    | some d => exact ih _

theorem parseDigits_digit (acc : Nat) {d : Nat} (h : d < 10) : parseDigits acc [digitChar d] = some (10 * acc + d) := by
  rw [parseDigits, digitValue_digitChar h]
  rfl

/-- The digits of a number that fits in `k` digits give the number back, least significant digit last. -/
theorem parseDigits_decimal {k n : Nat} (h : n < 10 ^ (k + 1)) : parseDigits 0 (decimal (k + 1) n) = some n := by
  induction k generalizing n with
  | zero =>
    rw [decimal, if_pos (by omega), parseDigits_digit 0 (by omega), Nat.mul_zero, Nat.zero_add]
  | succ k ih =>
    rw [decimal]
    split
    case isTrue hn => rw [parseDigits_digit 0 hn, Nat.mul_zero, Nat.zero_add]
    case isFalse =>
      rw [parseDigits_append, ih (by omega), Option.bind_some, parseDigits_digit _ (Nat.mod_lt _ (by decide)),
        Nat.div_add_mod]

theorem parseNat_of_ne_nil {cs : List Char} (h : cs ≠ []) : parseNat cs = parseDigits 0 cs := by
  cases cs with
  | nil => exact absurd rfl h
  | cons c rest => rfl

theorem natText_ne_nil (n : Nat) : natText n ≠ [] := decimal_ne_nil 9 n

theorem parseNat_natText {n : Nat} (h : n < 10 ^ 10) : parseNat (natText n) = some n := by
  rw [parseNat_of_ne_nil (natText_ne_nil n)]
  exact parseDigits_decimal h

theorem parseInt_of_no_sign {cs : List Char} (hnil : cs ≠ []) (hsign : '-' ∉ cs) :
    parseInt cs = (parseNat cs).map (fun n : Nat => (n : Int)) := by
  cases cs with
  | nil => exact absurd rfl hnil
  | cons c rest =>
    have hc : c ≠ '-' := fun hc => hsign (List.mem_cons.2 (.inl hc.symm))
    exact if_neg hc

theorem minus_not_mem_natText (n : Nat) : '-' ∉ natText n := by
  intro h
  obtain ⟨d, hd, hc⟩ := exists_digit_of_mem_decimal h
  obtain ⟨_, _, hminus⟩ := digitChar_plain hd
  exact hminus hc.symm

theorem parseInt_intText {n : Int} (h : n.natAbs < 10 ^ 10) : parseInt (intText n) = some n := by
  rw [intText]
  split
  case isTrue hneg =>
    rw [parseInt, if_pos rfl, parseNat_natText h, Option.map_some]
    congr
    omega
  case isFalse hneg =>
    rw [parseInt_of_no_sign (natText_ne_nil _) (minus_not_mem_natText _), parseNat_natText h, Option.map_some]
    congr
    omega

/-! ## Operands (rules R11, R62) -/

theorem parseReg_regName (r : Reg) : parseReg (regName r) = some r := by
  cases r with
  | pc | a | b | c | d | e | f | g => rfl

theorem parseImmediate_intText {v : Word} (h : immediateInRange v = true) : parseImmediate (intText v.toInt) = some v := by
  simp only [immediateInRange, Bool.and_eq_true, decide_eq_true_eq] at h
  rw [parseImmediate, parseInt_intText (by omega)]
  simp only [h, and_self, if_true, BitVec.ofInt_toInt]

theorem parseTarget_natText {t : Word} (h : targetInRange t = true) : parseTarget (natText t.toNat) = some t := by
  simp only [targetInRange, decide_eq_true_eq] at h
  rw [parseTarget, parseNat_natText (by omega)]
  simp only [h, if_true, BitVec.ofNat_toNat, BitVec.setWidth_eq]

theorem parseRegs_regNames (mk : Reg → Reg → Reg → Instr) (ra rb rc : Reg) :
    parseRegs mk [regName ra, regName rb, regName rc] = some (mk ra rb rc) := by
  simp only [parseRegs, parseReg_regName]

theorem parseOneReg_regName (mk : Reg → Instr) (ra : Reg) : parseOneReg mk [regName ra] = some (mk ra) := by
  simp only [parseOneReg, parseReg_regName, Option.map_some]

theorem parseRegValue_of_value {value : List Char → Option Word} {cs : List Char} {v : Word} (h : value cs = some v)
    (mk : Reg → Word → Instr) (ra : Reg) : parseRegValue value mk [regName ra, cs] = some (mk ra v) := by
  simp only [parseRegValue, parseReg_regName, h]

/-- The mnemonic selects the form, and the form reads its operands back. -/
theorem parseOperands_operandTexts {i : Instr} (h : i.wellFormed = true) :
    parseOperands (mnemonicOf i) (operandTexts i) = some i := by
  cases i with
  | halt | store => rfl
  | load ra v => exact parseRegValue_of_value (parseImmediate_intText h) .load ra
  | inc ra => exact parseOneReg_regName .inc ra
  | dec ra => exact parseOneReg_regName .dec ra
  | add ra rb rc => exact parseRegs_regNames .add ra rb rc
  | sub ra rb rc => exact parseRegs_regNames .sub ra rb rc
  | mul ra rb rc => exact parseRegs_regNames .mul ra rb rc
  | div ra rb rc => exact parseRegs_regNames .div ra rb rc
  | and ra rb rc => exact parseRegs_regNames .and ra rb rc
  | jump t => exact congrArg (Option.map Instr.jump) (parseTarget_natText h)
  | jumpIfZero ra t => exact parseRegValue_of_value (parseTarget_natText h) .jumpIfZero ra

/-! ## Cutting the text -/

/-- A name or a number: characters, at least one, none of which the cut looks for. -/
structure Plain (cs : List Char) : Prop where
  ne_nil : cs ≠ []
  no_blank : ∀ c ∈ cs, isBlank c = false
  no_comma : ',' ∉ cs

theorem plain_natText (n : Nat) : Plain (natText n) where
  ne_nil := natText_ne_nil n
  no_blank c h := by
    obtain ⟨d, hd, rfl⟩ := exists_digit_of_mem_decimal h
    obtain ⟨hblank, _, _⟩ := digitChar_plain hd
    exact hblank
  no_comma h := by
    obtain ⟨d, hd, hc⟩ := exists_digit_of_mem_decimal h
    obtain ⟨_, hcomma, _⟩ := digitChar_plain hd
    exact hcomma hc.symm

theorem Plain.cons {c : Char} {cs : List Char} (h : Plain cs) (hblank : isBlank c = false) (hcomma : ',' ≠ c) :
    Plain (c :: cs) where
  ne_nil := List.cons_ne_nil c cs
  no_blank := List.forall_mem_cons.2 ⟨hblank, h.no_blank⟩
  no_comma := List.not_mem_cons_of_ne_of_not_mem hcomma h.no_comma

theorem plain_intText (n : Int) : Plain (intText n) := by
  rw [intText]
  split
  · exact (plain_natText _).cons rfl (by decide)
  · exact plain_natText _

theorem plain_regName (r : Reg) : Plain (regName r) := by
  cases r with
  | pc | a | b | c | d | e | f | g => exact ⟨by simp [regName], by simp [regName, isBlank], by simp [regName]⟩

theorem plain_mnemonicOf (i : Instr) : Plain (mnemonicOf i) := by
  cases i with
  | halt | load | store | inc | dec | add | sub | mul | div | and | jump | jumpIfZero =>
    exact ⟨by simp [mnemonicOf], by simp [mnemonicOf, isBlank], by simp [mnemonicOf]⟩

theorem plain_operandTexts (i : Instr) : ∀ op ∈ operandTexts i, Plain op := by
  cases i with
  | halt | load | store | inc | dec | add | sub | mul | div | and | jump | jumpIfZero =>
    simp [operandTexts, plain_regName, plain_intText, plain_natText]

theorem splitText_of_no_separator {p : Char → Bool} {xs : List Char} (h : ∀ c ∈ xs, p c = false) : splitText p xs = [xs] := by
  induction xs with
  | nil => rfl
  | cons c xs ih =>
    obtain ⟨hc, hxs⟩ := List.forall_mem_cons.1 h
    simp [splitText, hc, ih hxs]

theorem splitText_append_separator {p : Char → Bool} {xs ys : List Char} {c : Char} (h : ∀ c ∈ xs, p c = false)
    (hc : p c = true) : splitText p (xs ++ c :: ys) = xs :: splitText p ys := by
  induction xs with
  | nil => simp [splitText, hc]
  | cons x xs ih =>
    obtain ⟨hx, hxs⟩ := List.forall_mem_cons.1 h
    simp [splitText, hx, ih hxs]

theorem Plain.no_separator {cs : List Char} (h : Plain cs) : ∀ c ∈ cs, (c == ',') = false :=
  fun _ hc => beq_eq_false_iff_ne.2 (fun heq => h.no_comma (heq ▸ hc))

/-- Joining operands puts commas where the cut looks for them, and nowhere else. -/
theorem splitText_joinOperands {ops : List (List Char)} (hnil : ops ≠ []) (h : ∀ op ∈ ops, Plain op) :
    splitText (· == ',') (joinOperands ops) = ops := by
  induction ops with
  | nil => exact absurd rfl hnil
  | cons op rest ih =>
    obtain ⟨hop, hrest⟩ := List.forall_mem_cons.1 h
    cases rest with
    | nil => exact splitText_of_no_separator hop.no_separator
    | cons op' rest =>
      rw [joinOperands, splitText_append_separator hop.no_separator rfl, ih (List.cons_ne_nil _ _) hrest]
      nofun

theorem joinOperands_no_blank {ops : List (List Char)} (h : ∀ op ∈ ops, Plain op) :
    ∀ c ∈ joinOperands ops, isBlank c = false := by
  induction ops with
  | nil => exact fun _ hc => absurd hc List.not_mem_nil
  | cons op rest ih =>
    obtain ⟨hop, hrest⟩ := List.forall_mem_cons.1 h
    cases rest with
    | nil => exact hop.no_blank
    | cons op' rest =>
      rw [joinOperands]
      · exact List.forall_mem_append.2 ⟨hop.no_blank, List.forall_mem_cons.2 ⟨rfl, ih hrest⟩⟩
      · nofun

theorem joinOperands_ne_nil {ops : List (List Char)} (hnil : ops ≠ []) (h : ∀ op ∈ ops, Plain op) : joinOperands ops ≠ [] := by
  cases ops with
  | nil => exact absurd rfl hnil
  | cons op rest =>
    obtain ⟨hop, _⟩ := List.forall_mem_cons.1 h
    cases rest with
    | nil => exact hop.ne_nil
    | cons => simp [joinOperands]

/-- Only blanks at the ends are trimmed. -/
theorem trimText_eq_self_of_ends {cs : List Char} (hfirst : ∀ h : cs ≠ [], isBlank (cs.head h) = false)
    (hlast : ∀ h : cs ≠ [], isBlank (cs.getLast h) = false) : trimText cs = cs := by
  have hleft : cs.dropWhile isBlank = cs := by
    rw [List.dropWhile_eq_self_iff]
    intro hl
    rw [← List.head_eq_getElem (List.ne_nil_of_length_pos hl), hfirst]
    decide
  have hright : cs.rdropWhile isBlank = cs := by
    rw [List.rdropWhile_eq_self_iff]
    intro hl
    rw [hlast hl]
    decide
  rw [trimText, hleft]
  exact hright

theorem trimText_of_no_blank {cs : List Char} (h : ∀ c ∈ cs, isBlank c = false) : trimText cs = cs :=
  trimText_eq_self_of_ends (fun hl => h _ (List.head_mem hl)) (fun hl => h _ (List.getLast_mem hl))

theorem trimText_cons_blank (cs : List Char) : trimText (' ' :: cs) = trimText cs := rfl

theorem Plain.not_blank {m : List Char} (h : Plain m) : ∀ c ∈ m, (!isBlank c) = true := fun c hc => by
  rw [h.no_blank c hc, Bool.not_false]

/-- A text of a mnemonic alone. -/
theorem parseInstr_mnemonic {m : List Char} (hm : Plain m) : parseInstr m = parseOperands m [] := by
  have htake : m.takeWhile (fun c => !isBlank c) = m := List.takeWhile_eq_self_iff.2 hm.not_blank
  have hdrop : m.dropWhile (fun c => !isBlank c) = [] := List.dropWhile_eq_nil_iff.2 hm.not_blank
  simp only [parseInstr, trimText_of_no_blank hm.no_blank, htake, hdrop]
  rfl

theorem trimText_mnemonic_operands {m rest : List Char} (hm : Plain m) (hnil : rest ≠ [])
    (hrest : ∀ c ∈ rest, isBlank c = false) : trimText (m ++ ' ' :: rest) = m ++ ' ' :: rest := by
  apply trimText_eq_self_of_ends
  · intro _
    rw [List.head_append_of_ne_nil hm.ne_nil]
    exact hm.no_blank _ (List.head_mem _)
  · intro _
    rw [List.getLast_append_of_ne_nil _ (List.cons_ne_nil _ _), List.getLast_cons hnil]
    exact hrest _ (List.getLast_mem _)

/-- A text of a mnemonic, a blank and operands. -/
theorem parseInstr_operands {m : List Char} {ops : List (List Char)} (hm : Plain m) (hnil : ops ≠ [])
    (hops : ∀ op ∈ ops, Plain op) : parseInstr (m ++ ' ' :: joinOperands ops) = parseOperands m ops := by
  have hjoined := joinOperands_no_blank hops
  have hne := joinOperands_ne_nil hnil hops
  have htake : (m ++ ' ' :: joinOperands ops).takeWhile (fun c => !isBlank c) = m := by
    rw [List.takeWhile_append_of_pos hm.not_blank]
    exact List.append_nil m
  have hdrop : (m ++ ' ' :: joinOperands ops).dropWhile (fun c => !isBlank c) = ' ' :: joinOperands ops := by
    rw [List.dropWhile_append_of_pos hm.not_blank]
    rfl
  have hmap : ops.map trimText = ops := by
    conv_rhs => rw [← List.map_id ops]
    exact List.map_congr_left (fun op hop => trimText_of_no_blank (hops op hop).no_blank)
  simp only [parseInstr, trimText_mnemonic_operands hm hne hjoined, htake, hdrop, trimText_cons_blank,
    trimText_of_no_blank hjoined, if_neg hne, splitText_joinOperands hnil hops, hmap]

/-- Settles O60: the text cuts into the mnemonic and the operands it was written from, and these read back. -/
theorem assemblyTextRoundTrip : Obligations.AssemblyTextRoundTrip := by
  intro i h
  rw [instrText]
  split
  case h_1 hops =>
    rw [parseInstr_mnemonic (plain_mnemonicOf i), ← hops, parseOperands_operandTexts h]
  case h_2 op rest hops =>
    rw [← hops, parseInstr_operands (plain_mnemonicOf i) (by rw [hops]; exact List.cons_ne_nil _ _)
      (plain_operandTexts i), parseOperands_operandTexts h]

end Sys2Proof.Machine
end

section
/-! PROOF. The step against the reference cycle over plain numbers (rule R75): registers and fields as numbers, what the
reference does for each opcode, and each opcode's cycle matched with it. -/

namespace Sys2Proof.Machine

open Sys2Proof.Claims

/-! ## Registers as numbers -/

/-- The numbers of a register file given as a function, in index order. -/
def numbersOf (x : Reg → Word) : List Nat :=
  [(x .pc).toNat, (x .a).toNat, (x .b).toNat, (x .c).toNat, (x .d).toNat, (x .e).toNat, (x .f).toNat, (x .g).toNat]

theorem numbers_eq_numbersOf (s : State) : numbers s = numbersOf s.readReg := rfl

theorem numbersOf_getD_index (x : Reg → Word) (r : Reg) : (numbersOf x).getD r.index.toNat 0 = (x r).toNat := by
  cases r with
  | pc | a | b | c | d | e | f | g => rfl

theorem numbersOf_upd (x : Reg → Word) (r : Reg) (v : Word) :
    numbersOf (upd x r v) = (numbersOf x).set r.index.toNat v.toNat := by
  cases r with
  | pc | a | b | c | d | e | f | g => rfl

theorem numbersOf_fetched (s : State) :
    numbersOf (fetched s) = (numbers s).set 0 (((numbers s).getD 0 0 + 1) % 4294967296) := by
  have hupd : fetched s = upd s.readReg .pc (s.readReg .pc + 1#32) := by
    funext r
    unfold fetched upd
    split <;> rfl
  rw [hupd, numbersOf_upd, BitVec.toNat_add]
  rfl

theorem Reg.exists_index_eq {v : Byte} (h : ¬ 7 < v.toNat) : ∃ r : Reg, r.index = v := by
  cases hv : Reg.ofField v with
  | none => exact absurd ((Reg.ofField_eq_none_iff v).1 hv) h
  | some r => exact ⟨r, ((Reg.ofField_eq_some_iff v r).1 hv).symm⟩

/-! ## Fields as numbers (rule R51) -/

theorem rawWord_toNat (op ra hi lo : Byte) :
    (rawWord op ra hi lo).toNat = op.toNat * 16777216 + ra.toNat * 65536 + hi.toNat * 256 + lo.toNat := by
  rw [rawWord_eq_packWord, Laws.CanonicalWord.packWord_toNat, BitVec.toNat_append,
    ← Nat.shiftLeft_add_eq_or_of_lt lo.isLt, Nat.shiftLeft_eq]
  omega

theorem rawWord_toNat_op (op ra hi lo : Byte) : (rawWord op ra hi lo).toNat / 16777216 = op.toNat := by
  rw [rawWord_toNat]
  omega

theorem rawWord_toNat_ra (op ra hi lo : Byte) : (rawWord op ra hi lo).toNat / 65536 % 256 = ra.toNat := by
  rw [rawWord_toNat]
  omega

theorem rawWord_toNat_rb (op ra hi lo : Byte) : (rawWord op ra hi lo).toNat / 256 % 256 = hi.toNat := by
  rw [rawWord_toNat]
  omega

theorem rawWord_toNat_rc (op ra hi lo : Byte) : (rawWord op ra hi lo).toNat % 256 = lo.toNat := by
  rw [rawWord_toNat]
  omega

theorem rawWord_toNat_payload (op ra hi lo : Byte) :
    (rawWord op ra hi lo).toNat % 65536 = (hi ++ lo : BitVec 16).toNat := by
  rw [rawWord_toNat, BitVec.toNat_append, ← Nat.shiftLeft_add_eq_or_of_lt lo.isLt, Nat.shiftLeft_eq]
  omega

/-! ## What the reference does for each opcode -/

/-- The reference's answer where one register field is read. -/
def referenceOne (y : List Nat) (ra v : Nat) : List Nat × Status :=
  if 7 < ra then (y, .faulted .illegalRegister) else (y.set ra v, .running)

/-- The reference's answer where three register fields are read. -/
def referenceThree (y : List Nat) (ra rb rc v : Nat) : List Nat × Status :=
  if 7 < ra ∨ 7 < rb ∨ 7 < rc then (y, .faulted .illegalRegister) else (y.set rc v, .running)

/-- The reference's answer for Div. -/
def referenceDiv (y : List Nat) (ra rb rc : Nat) : List Nat × Status :=
  if 7 < ra ∨ 7 < rb ∨ 7 < rc then (y, .faulted .illegalRegister)
  else if y.getD rb 0 = 0 then (y, .faulted .divisionByZero)
  else (y.set rc (quotient (y.getD ra 0) (y.getD rb 0)), .running)

/-- The reference's answer for JumpIfZero with the target `p`. -/
def referenceJumpIfZero (y : List Nat) (ra p : Nat) : List Nat × Status :=
  if 7 < ra then (y, .faulted .illegalRegister)
  else if y.getD ra 0 = 0 then (y.set 0 p, .running)
  else (y, .running)

/-- The reference's bounds check passes, and the word it reads has the given bytes. -/
structure ReferenceReads (x prog : List Nat) (op ra hi lo : Byte) : Prop where
  inside : ¬ (sgn (x.getD 0 0) < 0 ∨ (prog.length : Int) ≤ sgn (x.getD 0 0))
  word : prog.getD (sgn (x.getD 0 0)).toNat 0 = (rawWord op ra hi lo).toNat

/-- The registers after the reference's fetch increment. -/
def incremented (x : List Nat) : List Nat := x.set 0 ((x.getD 0 0 + 1) % 4294967296)

/-- Decode and execute of the reference, on the fields of the word and the registers after the fetch increment. -/
def referenceExecute (y : List Nat) (op ra rb rc p : Nat) : List Nat × Status :=
  match op with
  | 0 => (y, .halted)
  | 1 => referenceOne y ra (if p < 32768 then p else p + 4294901760)
  | 2 => (y, .faulted .undefinedOpcode)
  | 3 => referenceOne y ra ((y.getD ra 0 + 1) % 4294967296)
  | 4 => referenceOne y ra ((y.getD ra 0 + 4294967295) % 4294967296)
  | 5 => referenceThree y ra rb rc ((y.getD ra 0 + y.getD rb 0) % 4294967296)
  | 6 => referenceThree y ra rb rc ((y.getD ra 0 + (4294967296 - y.getD rb 0)) % 4294967296)
  | 7 => referenceThree y ra rb rc (y.getD ra 0 * y.getD rb 0 % 4294967296)
  | 8 => referenceDiv y ra rb rc
  | 9 => referenceThree y ra rb rc (if y.getD ra 0 = 0 ∨ y.getD rb 0 = 0 then 0 else 1)
  | 10 => (y.set 0 p, .running)
  | 11 => referenceJumpIfZero y ra p
  | _ => (y, .faulted .undefinedOpcode)

theorem referenceCycle_of_inside {x prog : List Nat} {op ra hi lo : Byte} (h : ReferenceReads x prog op ra hi lo) :
    referenceCycle x prog =
      referenceExecute (incremented x) op.toNat ra.toNat hi.toNat lo.toNat (hi ++ lo : BitVec 16).toNat := by
  obtain ⟨hin, hw⟩ := h
  simp only [referenceCycle, if_neg hin, hw, rawWord_toNat_op, rawWord_toNat_ra, rawWord_toNat_rb, rawWord_toNat_rc,
    rawWord_toNat_payload]
  rfl

theorem referenceCycle_of_outside {x prog : List Nat}
    (h : sgn (x.getD 0 0) < 0 ∨ (prog.length : Int) ≤ sgn (x.getD 0 0)) :
    referenceCycle x prog = (x, .faulted .outOfBounds) := if_pos h

/-- The model's fetch and the reference's agree: the reading, the bounds and the word are the same numbers. -/
theorem referenceReads_of_fetches {s : State} {op ra hi lo : Byte} (h : Fetches s (rawWord op ra hi lo)) :
    ReferenceReads (numbers s) (s.prog.map BitVec.toNat) op ra hi lo := by
  obtain ⟨_, _, hw⟩ := h
  have hpc : sgn ((numbers s).getD 0 0) = signed (s.readReg .pc) := rfl
  obtain ⟨hlo, hhi⟩ := Memory.progRead_bounds hw
  obtain ⟨_, hget⟩ := (Memory.progRead_eq_some_iff _ _ _).1 hw
  constructor
  · rw [hpc, List.length_map]
    unfold Memory.plen at hhi
    omega
  · rw [hpc, List.getD_eq_getElem?_getD, List.getElem?_map, hget]
    rfl

/-! ## A step that does what the reference does -/

/-- One step of `s` answers a next state with the registers and the status of the reference's answer `o`, and the Program
Store and the value-stack as they were. -/
def Refines (s : State) (o : List Nat × Status) : Prop :=
  ∃ t, step s = .next t ∧ (numbers t, t.status) = o ∧ t.prog = s.prog ∧ t.valueStack = s.valueStack

theorem refines_of_stepEnds {s : State} {x : Reg → Word} {st : Status} (h : StepEnds s x st) :
    Refines s (numbersOf x, st) := by
  obtain ⟨t, hstep, hreg, rfl, hprog, hstack⟩ := h
  obtain rfl : t.readReg = x := funext hreg
  exact ⟨t, hstep, by rw [numbers_eq_numbersOf], hprog, hstack⟩

theorem refines_of_stepEnds_upd {s : State} {x : Reg → Word} {r : Reg} {v : Word} {st : Status}
    (h : StepEnds s (upd x r v) st) : Refines s ((numbersOf x).set r.index.toNat v.toNat, st) := by
  rw [← numbersOf_upd]
  exact refines_of_stepEnds h

/-- The shape of the one-register words: for each legal field a value written, and the decoder's fault for the others. -/
theorem refines_referenceOne {s : State} {x : Reg → Word} {ra : Byte} {f : Reg → Word} {v : Nat}
    (hlegal : ∀ r : Reg, r.index = ra → StepEnds s (upd x r (f r)) .running)
    (hillegal : 7 < ra.toNat → StepEnds s x (.faulted .illegalRegister))
    (hv : ∀ r : Reg, r.index = ra → (f r).toNat = v) : Refines s (referenceOne (numbersOf x) ra.toNat v) := by
  unfold referenceOne
  split
  case isTrue hbad => exact refines_of_stepEnds (hillegal hbad)
  case isFalse hgood =>
    obtain ⟨r, rfl⟩ := Reg.exists_index_eq hgood
    rw [← hv r rfl]
    exact refines_of_stepEnds_upd (hlegal r rfl)

theorem Reg.exists_three_index_eq {ra rb rc : Byte} (h : ¬ (7 < ra.toNat ∨ 7 < rb.toNat ∨ 7 < rc.toNat)) :
    ∃ r1 r2 r3 : Reg, r1.index = ra ∧ r2.index = rb ∧ r3.index = rc := by
  simp only [not_or] at h
  obtain ⟨ha, hb, hc⟩ := h
  obtain ⟨r1, h1⟩ := Reg.exists_index_eq ha
  obtain ⟨r2, h2⟩ := Reg.exists_index_eq hb
  obtain ⟨r3, h3⟩ := Reg.exists_index_eq hc
  exact ⟨r1, r2, r3, h1, h2, h3⟩

/-- The three-register words whose handler always writes: `f` on words is `g` on their numbers. -/
theorem refines_of_binaryWord {op : Byte} {f : Word → Word → Word} {g : Nat → Nat → Nat} {s : State} {ra rb rc : Byte}
    (hword : BinaryWord op f) (hfg : ∀ a b, (f a b).toNat = g a.toNat b.toNat) (h : Fetches s (rawWord op ra rb rc)) :
    Refines s (referenceThree (numbersOf (fetched s)) ra.toNat rb.toNat rc.toNat
      (g ((numbersOf (fetched s)).getD ra.toNat 0) ((numbersOf (fetched s)).getD rb.toNat 0))) := by
  obtain ⟨hlegal, hillegal⟩ := hword s ra rb rc h
  unfold referenceThree
  split
  case isTrue hbad => exact refines_of_stepEnds (hillegal hbad)
  case isFalse hgood =>
    obtain ⟨r1, r2, r3, rfl, rfl, rfl⟩ := Reg.exists_three_index_eq hgood
    rw [numbersOf_getD_index, numbersOf_getD_index, ← hfg]
    exact refines_of_stepEnds_upd (hlegal r1 r2 r3 rfl rfl rfl)

/-! ## The ALU's results as numbers -/

theorem toNat_ofInt_payload (p : BitVec 16) :
    (BitVec.ofInt 32 p.toInt).toNat = if p.toNat < 32768 then p.toNat else p.toNat + 4294901760 := by
  have hp := p.isLt
  rw [BitVec.toNat_ofInt, BitVec.toInt_eq_toNat_cond]
  split <;> split <;> omega

theorem toNat_zext32 (p : BitVec 16) : (zext32 p).toNat = p.toNat :=
  BitVec.toNat_setWidth_of_le (by decide)

theorem toInt_neg_iff (v : Word) : v.toInt < 0 ↔ ¬ v.toNat < 2147483648 := by
  have hv := v.isLt
  rw [BitVec.toInt_eq_toNat_cond]
  split <;> omega

/-- The signs that the reference compares are those of the operands. -/
theorem signs_agree_iff (a b : Word) :
    decide (a.toInt < 0) = decide (b.toInt < 0) ↔ decide (a.toNat < 2147483648) = decide (b.toNat < 2147483648) := by
  rw [decide_eq_decide, decide_eq_decide, toInt_neg_iff, toInt_neg_iff, not_iff_not]

theorem toNat_quotient (a b : Word) :
    (BitVec.ofInt 32 (Int.tdiv a.toInt b.toInt)).toNat = quotient a.toNat b.toNat := by
  have hsgn (v : Word) : sgn v.toNat = v.toInt := signed_eq_toInt v
  obtain ⟨hlo, hhi⟩ := signed_range a
  rw [signed_eq_toInt] at hlo hhi
  have hle : a.toInt.natAbs / b.toInt.natAbs ≤ a.toInt.natAbs := Nat.div_le_self _ _
  rw [← tdiv_eq_tdiv, tdiv, quotient, hsgn, hsgn, BitVec.toNat_ofInt]
  simp only [signs_agree_iff]
  generalize a.toInt.natAbs / b.toInt.natAbs = q at hle
  split <;> omega

theorem toNat_sub_one (a : Word) : (a - 1#32).toNat = (a.toNat + 4294967295) % 4294967296 := by
  rw [BitVec.toNat_sub, Nat.add_comm]
  rfl

theorem toNat_sub_comm (a b : Word) : (a - b).toNat = (a.toNat + (4294967296 - b.toNat)) % 4294967296 := by
  rw [BitVec.toNat_sub, Nat.add_comm]

theorem toNat_eq_zero_iff (a : Word) : a.toNat = 0 ↔ a = 0#32 :=
  ⟨fun h => BitVec.eq_of_toNat_eq h, fun h => h ▸ rfl⟩

theorem toNat_logical_and (a b : Word) :
    (if a ≠ 0#32 ∧ b ≠ 0#32 then 1#32 else 0#32).toNat = if a.toNat = 0 ∨ b.toNat = 0 then 0 else 1 := by
  simp only [toNat_eq_zero_iff]
  by_cases ha : a = 0#32
  · simp [ha]
  · by_cases hb : b = 0#32
    · simp [hb]
    · simp [ha, hb]

/-! ## Each opcode against the reference -/

/-- Div, by its three ends: the illegal field, the zero divisor, and the quotient. -/
theorem refines_of_fetches_div {s : State} {ra hi lo : Byte} (h : Fetches s (rawWord 8 ra hi lo)) :
    Refines s (referenceDiv (numbersOf (fetched s)) ra.toNat hi.toNat lo.toNat) := by
  obtain ⟨hlegal, hillegal, _⟩ := divWordDivides s ra hi lo h
  unfold referenceDiv
  split
  case isTrue hbad => exact refines_of_stepEnds (hillegal hbad)
  case isFalse hgood =>
    obtain ⟨r1, r2, r3, rfl, rfl, rfl⟩ := Reg.exists_three_index_eq hgood
    have hends := hlegal r1 r2 r3 rfl rfl rfl
    simp only [numbersOf_getD_index, toNat_eq_zero_iff]
    split
    case isTrue hz =>
      rw [if_pos hz] at hends
      exact refines_of_stepEnds hends
    case isFalse hnz =>
      rw [if_neg hnz] at hends
      rw [← toNat_quotient]
      exact refines_of_stepEnds_upd hends

/-- JumpIfZero, by its three ends: the illegal field, the taken jump, and the jump not taken. -/
theorem refines_of_fetches_jumpIfZero {s : State} {ra hi lo : Byte} (h : Fetches s (rawWord 11 ra hi lo)) :
    Refines s (referenceJumpIfZero (numbersOf (fetched s)) ra.toNat (hi ++ lo : BitVec 16).toNat) := by
  obtain ⟨hlegal, hillegal, _⟩ := jumpIfZeroWordTestsRegister s ra hi lo h
  unfold referenceJumpIfZero
  split
  case isTrue hbad => exact refines_of_stepEnds (hillegal hbad)
  case isFalse hgood =>
    obtain ⟨r, rfl⟩ := Reg.exists_index_eq hgood
    have hends := hlegal r rfl
    simp only [numbersOf_getD_index, toNat_eq_zero_iff]
    split
    case isTrue hz =>
      rw [if_pos hz] at hends
      obtain ⟨htaken, _⟩ := hends
      rw [← zext32_eq_setWidth] at htaken
      have htarget := refines_of_stepEnds_upd htaken
      rwa [toNat_zext32] at htarget
    case isFalse hnz =>
      rw [if_neg hnz] at hends
      exact refines_of_stepEnds hends

theorem opcode_values (op : Byte) :
    op = 0#8 ∨ op = 1#8 ∨ op = 2#8 ∨ op = 3#8 ∨ op = 4#8 ∨ op = 5#8 ∨ op = 6#8 ∨ op = 7#8 ∨ op = 8#8 ∨ op = 9#8 ∨
      op = 10#8 ∨ op = 11#8 ∨ 12 ≤ op.toNat := by
  bv_omega

theorem referenceExecute_of_undefined {op : Nat} (h : 12 ≤ op) (y : List Nat) (ra rb rc p : Nat) :
    referenceExecute y op ra rb rc p = (y, .faulted .undefinedOpcode) := by
  unfold referenceExecute
  split
  case h_13 => rfl
  all_goals omega

/-- Every fetched word, by its opcode: what the model's cycle is known to end in is what the reference answers. -/
theorem refines_referenceExecute {s : State} {op ra hi lo : Byte} (h : Fetches s (rawWord op ra hi lo)) :
    Refines s (referenceExecute (numbersOf (fetched s)) op.toNat ra.toNat hi.toNat lo.toNat
      (hi ++ lo : BitVec 16).toNat) := by
  rcases opcode_values op with rfl | rfl | rfl | rfl | rfl | rfl | rfl | rfl | rfl | rfl | rfl | rfl | hop
  · obtain ⟨hends, _⟩ := haltWordEndsTheRun s ra hi lo h
    exact refines_of_stepEnds hends
  · obtain ⟨hlegal, hillegal, _⟩ := loadWordLoadsImmediate s ra hi lo h
    exact refines_referenceOne hlegal hillegal (fun _ _ => toNat_ofInt_payload _)
  · exact refines_of_stepEnds (storeWordFaults s ra hi lo h)
  · obtain ⟨hlegal, hillegal⟩ := incWordAddsOne s ra hi lo h
    refine refines_referenceOne hlegal hillegal (fun r hr => ?_)
    rw [← hr, numbersOf_getD_index, BitVec.toNat_add]
    rfl
  · obtain ⟨hlegal, hillegal, _⟩ := decWordSubtractsOne s ra hi lo h
    refine refines_referenceOne hlegal hillegal (fun r hr => ?_)
    rw [← hr, numbersOf_getD_index, toNat_sub_one]
  · exact refines_of_binaryWord (g := fun a b => (a + b) % 4294967296) addWordAdds BitVec.toNat_add h
  · exact refines_of_binaryWord (g := fun a b => (a + (4294967296 - b)) % 4294967296) subWordSubtracts toNat_sub_comm h
  · exact refines_of_binaryWord (g := fun a b => a * b % 4294967296) mulWordMultiplies BitVec.toNat_mul h
  · exact refines_of_fetches_div h
  · exact refines_of_binaryWord (g := fun a b => if a = 0 ∨ b = 0 then 0 else 1) andWordIsLogical toNat_logical_and h
  · obtain ⟨hends, _⟩ := jumpWordReplacesPc s ra hi lo h
    rw [← zext32_eq_setWidth] at hends
    have htarget := refines_of_stepEnds_upd hends
    rwa [toNat_zext32] at htarget
  · exact refines_of_fetches_jumpIfZero h
  · rw [referenceExecute_of_undefined hop]
    exact refines_of_stepEnds (undefinedOpcodeWordFaults s op ra hi lo h (.inr hop))

/-- Settles O32: the fetch agrees with the reference's, and so does the cycle of every fetched word. -/
theorem stepIsReferenceCycle : Obligations.StepIsReferenceCycle := by
  intro s hrun hwf
  cases hw : s.fetchWord with
  | none =>
    have hout : sgn ((numbers s).getD 0 0) < 0 ∨ ((s.prog.map BitVec.toNat).length : Int) ≤ sgn ((numbers s).getD 0 0) := by
      rw [List.length_map]
      exact s.fetchWord_eq_none_iff.1 hw
    rw [referenceCycle_of_outside hout]
    exact refines_of_stepEnds (stepEnds_outOfBounds_of_fetchWord_eq_none hrun hwf hw)
  | some w =>
    rw [← rawWord_fields w] at hw
    have hf := (⟨hrun, hwf, hw⟩ : Fetches s _)
    rw [referenceCycle_of_inside (referenceReads_of_fetches hf), incremented, ← numbersOf_fetched]
    exact refines_referenceExecute hf

end Sys2Proof.Machine
end
